-- ==== Sys2Proof/Word.lean ====
section
/-! DEFINITION. The words of the block (spec 00 R6, R9): levels, bytes, register addresses. -/

namespace Sys2Proof

/-- The level of a line or a sampled bit: `true` is 1, `false` is 0 (00 R9, 10 R18). -/
abbrev Level := Bool

/-- An 8-bit value, the source's BusWord; bit 7 is the most significant (00 R6, R9). -/
abbrev Byte := BitVec 8

/-- A 5-bit register address of the chip (00 R6, 10 R31). -/
abbrev Addr5 := BitVec 5

end Sys2Proof
end

