-- ==== Sys2Proof/Config.lean ====
section
/-! DEFINITION. The parameter record of the block (spec 00 R7, R8), its defaults, and the free values. -/

namespace Sys2Proof

/-- The register opcodes and the five fixed command bytes (00 R7, 30 R50, R51). -/
structure WireCodes where
  opRreg : BitVec 3
  opWreg : BitVec 3
  cmdRRxPlWid : Byte
  cmdRRxPayload : Byte
  cmdWTxPayload : Byte
  cmdFlushTx : Byte
  cmdFlushRx : Byte
deriving DecidableEq, Repr

/-- The chip's registers that the source names, under the labels of 10 R27. -/
inductive RegName where
  | config | enAa | enRxAddr | setupAw | setupRetr | rfCh | rfSetup | status | observeTx | cd
  | rxAddrP0 | rxAddrP1 | txAddr | rxPwP0 | rxPwP1 | rxPwP2 | rxPwP3 | rxPwP4 | rxPwP5
  | fifoStatus | dynpd | feature
deriving DecidableEq, Repr

/-- The parameter `REGADDR`: the address of each named register (00 R7, 10 R27). -/
structure RegMap where
  config : Addr5
  enAa : Addr5
  enRxAddr : Addr5
  setupAw : Addr5
  setupRetr : Addr5
  rfCh : Addr5
  rfSetup : Addr5
  status : Addr5
  observeTx : Addr5
  cd : Addr5
  rxAddrP0 : Addr5
  rxAddrP1 : Addr5
  txAddr : Addr5
  rxPwP0 : Addr5
  rxPwP1 : Addr5
  rxPwP2 : Addr5
  rxPwP3 : Addr5
  rxPwP4 : Addr5
  rxPwP5 : Addr5
  fifoStatus : Addr5
  dynpd : Addr5
  feature : Addr5
deriving DecidableEq, Repr

/-- The durations of 00 R7. No rule depends on them (70 R128) and the spec gives them no unit (log entry 16). -/
structure Timings where
  tSettle : Nat
  tCe : Nat
  tCsnHigh : Nat
  tPor : Nat
deriving DecidableEq, Repr

/-- The parameter record of 00 R7 and R8. -/
structure Params where
  codes : WireCodes
  /-- `DUMMY`, the don't-care byte of the read path (92 D5). -/
  dummy : Byte
  /-- `MAXLEN`, the largest length of a transfer (92 D14). -/
  maxLen : Nat
  /-- `MINIMIZE_CURRENT`, the pulse variant (92 D11). -/
  minimizeCurrent : Bool
  timings : Timings
  regs : RegMap
  /-- `TX_DS`, the mask of the TX-done bit (10 R25). -/
  txDs : Byte
  /-- `MAX_RT`, the mask of the max-retry bit (10 R25). -/
  maxRt : Byte
  /-- `RX_DR`, the mask of the receive-data-ready bit (10 R25, 92 D20). -/
  rxDr : Byte
deriving DecidableEq, Repr

namespace Config

/-- The level on MISO at the sample with this index, where `State.miso` does not say it: a free value under no law
(00 R11, 10 R16, 92 D27). Log entry 6. -/
opaque freeMiso : Nat → Level

/-- `DUMMY` at reset: open (92 D5). Log entry 10. -/
opaque dummy : Byte

/-- How far `MAXLEN` at reset exceeds 5: open (92 D14). Log entry 10. -/
opaque maxLenAbove5 : Nat

/-- `MINIMIZE_CURRENT` at reset: open (92 D11). Log entry 10. -/
opaque minimizeCurrent : Bool

/-- `T_SETTLE`, open (92 D10). Log entry 10. -/
opaque tSettle : Nat

/-- `T_CE`, open (92 D12). Log entry 10. -/
opaque tCe : Nat

/-- `T_CSN_HIGH`, open (92 D12). Log entry 10. -/
opaque tCsnHigh : Nat

/-- `T_POR`, open (92 D29). Log entry 10. -/
opaque tPor : Nat

end Config

end Sys2Proof
end

