-- ==== Sys2Proof/Machine/Operands.lean ====
section
/-! DEFINITION. Every operand form of the block: the address mask, the command byte, the bytes of a data phase, and the
bit fields they use (spec 30 R50, R51, R54; 42 R74, R85, R87). -/

namespace Sys2Proof

/-- A level as a byte: the level in bit 0, zero above it. -/
def levelByte (s : Level) : Byte := (BitVec.ofBool s).setWidth 8

/-- The opcode field, bits 7:5, of a command byte (30 R50). -/
def opField (c : Byte) : BitVec 3 := c.extractLsb' 5 3

/-- The address field, bits 4:0, of a command byte (30 R50). -/
def addrField (c : Byte) : Addr5 := c.extractLsb' 0 5

/-- The effective register address `a & 0x1F` of a request address (42 R74, R87; 30 R54). -/
def effAddr (a : Byte) : Addr5 := (a &&& 0x1F).setWidth 5

/-- The register-access command byte `(op << 5) | ea` (30 R50, 42 R85). -/
def regCommand (op : BitVec 3) (ea : Addr5) : Byte := (op.setWidth 8 <<< 5) ||| ea.setWidth 8

/-- The bytes sent in a read-path data phase of `n` bytes: `DUMMY` repeated `n` times (42 R78). -/
def dummies (p : Params) (n : Nat) : List Byte := List.replicate n p.dummy

/-- The command byte of `READ_REG` and `W_RREG` (42 R78). -/
def readCommand (p : Params) (ea : Addr5) : Byte := regCommand p.codes.opRreg ea

/-- The command byte of `WRITE_REG` and `W_WREG` (42 R79). -/
def writeCommand (p : Params) (ea : Addr5) : Byte := regCommand p.codes.opWreg ea

end Sys2Proof
end

