-- ==== Sys2Proof/Machine/Params.lean ====
section
/-! DEFINITION. The defaults of the parameter record, the register map's look-ups, and the record at reset
(spec 00 R7, 10 R25, R27, R28). -/

namespace Sys2Proof

/-- The defaults of 00 R7, which the spec marks as general knowledge (92 D6). PRESUMED, log entry 10. -/
def WireCodes.defaults : WireCodes where
  opRreg := 0b000
  opWreg := 0b001
  cmdRRxPlWid := 0x60
  cmdRRxPayload := 0x61
  cmdWTxPayload := 0xA0
  cmdFlushTx := 0xE1
  cmdFlushRx := 0xE2

/-- The default addresses of 10 R27, which the spec marks as general knowledge (92 D7). PRESUMED, log entry 10. -/
def RegMap.defaults : RegMap where
  config := 0x00
  enAa := 0x01
  enRxAddr := 0x02
  setupAw := 0x03
  setupRetr := 0x04
  rfCh := 0x05
  rfSetup := 0x06
  status := 0x07
  observeTx := 0x08
  cd := 0x09
  rxAddrP0 := 0x0A
  rxAddrP1 := 0x0B
  txAddr := 0x10
  rxPwP0 := 0x11
  rxPwP1 := 0x12
  rxPwP2 := 0x13
  rxPwP3 := 0x14
  rxPwP4 := 0x15
  rxPwP5 := 0x16
  fifoStatus := 0x17
  dynpd := 0x1C
  feature := 0x1D

/-- The address that `REGADDR` gives a name. -/
def RegMap.addr (m : RegMap) : RegName → Addr5
  | .config => m.config
  | .enAa => m.enAa
  | .enRxAddr => m.enRxAddr
  | .setupAw => m.setupAw
  | .setupRetr => m.setupRetr
  | .rfCh => m.rfCh
  | .rfSetup => m.rfSetup
  | .status => m.status
  | .observeTx => m.observeTx
  | .cd => m.cd
  | .rxAddrP0 => m.rxAddrP0
  | .rxAddrP1 => m.rxAddrP1
  | .txAddr => m.txAddr
  | .rxPwP0 => m.rxPwP0
  | .rxPwP1 => m.rxPwP1
  | .rxPwP2 => m.rxPwP2
  | .rxPwP3 => m.rxPwP3
  | .rxPwP4 => m.rxPwP4
  | .rxPwP5 => m.rxPwP5
  | .fifoStatus => m.fifoStatus
  | .dynpd => m.dynpd
  | .feature => m.feature

/-- The width in bytes of a named register: 5 for the three addresses, else 1 (10 R28). -/
def RegName.width : RegName → Nat
  | .rxAddrP0 | .rxAddrP1 | .txAddr => 5
  | .config | .enAa | .enRxAddr | .setupAw | .setupRetr | .rfCh | .rfSetup | .status | .observeTx | .cd
  | .rxPwP0 | .rxPwP1 | .rxPwP2 | .rxPwP3 | .rxPwP4 | .rxPwP5 | .fifoStatus | .dynpd | .feature => 1

/-- The parameter record the machine has at reset: the source's values of `TX_DS` and `MAX_RT` and the defaults of 00 R7,
and a free constant for each OPEN one. -/
def Params.atReset : Params where
  codes := .defaults
  dummy := Config.dummy
  maxLen := Config.maxLenAbove5 + 5
  minimizeCurrent := Config.minimizeCurrent
  timings := { tSettle := Config.tSettle, tCe := Config.tCe, tCsnHigh := Config.tCsnHigh, tPor := Config.tPor }
  regs := .defaults
  txDs := 0x20
  maxRt := 0x10
  rxDr := 0x40

end Sys2Proof
end

