-- ==== Sys2Proof/Syntax.lean ====
section
/-! DEFINITION. The instructions of the block: the seven wire commands and the fourteen requests of
spec/opcode_table.json, one constructor each (spec 30 R55, R58). -/

namespace Sys2Proof

/-- One constructor per row of spec/opcode_table.json. The first seven are the wire commands of 30 R58 (their row's
`source_fields` give the operands); the other fourteen are the host's requests of 30 R55 with the fields of 30 R56. -/
inductive Instr where
  /-- `W_RREG`: register read command, 5-bit address, `n` read-path bytes. -/
  | wRreg (ad : Addr5) (n : Nat)
  /-- `W_WREG`: register write command, 5-bit address, write-path bytes. -/
  | wWreg (ad : Addr5) (d : List Byte)
  /-- `W_R_RX_PL_WID`: read payload width, 1 read-path byte. -/
  | wRRxPlWid
  /-- `W_R_RX_PAYLOAD`: read payload, `n` read-path bytes. -/
  | wRRxPayload (n : Nat)
  /-- `W_W_TX_PAYLOAD`: write payload, write-path bytes. -/
  | wWTxPayload (d : List Byte)
  /-- `W_FLUSH_TX`. -/
  | wFlushTx
  /-- `W_FLUSH_RX`. -/
  | wFlushRx
  /-- Request 0x1, assert chip-select (R66). -/
  | csnLow
  /-- Request 0x2, release chip-select (R67). -/
  | csnHigh
  /-- Request 0x3, transfer byte `b` (R68). -/
  | xfer (b : Byte)
  /-- Request 0x4, transfer the bytes `d`; `r` is the read-path bit (R69). -/
  | xferN (d : List Byte) (r : Level)
  /-- Request 0x5, read `n` bytes of the register at address `a` (R78). -/
  | readReg (a : Byte) (n : Nat)
  /-- Request 0x6, write the bytes `d` to the register at address `a` (R79). -/
  | writeReg (a : Byte) (d : List Byte)
  /-- Request 0x7 (R80). -/
  | flushTx
  /-- Request 0x8 (R81). -/
  | flushRx
  /-- Request 0x9 (R82). -/
  | readPlWid
  /-- Request 0xA, read `n` payload bytes (R83). -/
  | readPayload (n : Nat)
  /-- Request 0xB, write the payload `d` (R84). -/
  | writePayload (d : List Byte)
  /-- Request 0xC (R71). -/
  | ceHigh
  /-- Request 0xD (R72). -/
  | ceLow
  /-- Request 0xE (R73). -/
  | cePulse
deriving DecidableEq, Repr

end Sys2Proof
end

