-- ==== Sys2Proof/WellFormed.lean ====
section
/-! DEFINITION. Which parameter records and which instructions are well formed (spec 30 R53, R56; 60 R103). -/

namespace Sys2Proof

/-- The five fixed command bytes (30 R51). -/
def WireCodes.fixed (c : WireCodes) : List Byte :=
  [c.cmdRRxPlWid, c.cmdRRxPayload, c.cmdWTxPayload, c.cmdFlushTx, c.cmdFlushRx]

/-- Well-formedness of the command codes (30 R53): the register opcodes differ, the fixed codes are pairwise distinct,
and no fixed code has a register opcode in bits 7:5. -/
def WireCodes.wf (c : WireCodes) : Bool :=
  decide (c.opRreg ≠ c.opWreg) && decide c.fixed.Nodup &&
    c.fixed.all fun f => decide (opField f ≠ c.opRreg) && decide (opField f ≠ c.opWreg)

/-- Well-formedness of a parameter record: 30 R53 and `MAXLEN ≥ 5` (60 R103, `BadConfig`). -/
def Params.wf (p : Params) : Bool := p.codes.wf && decide (5 ≤ p.maxLen)

/-- The number of bytes an instruction gives in a field that `MAXLEN` bounds (`n` or `len(D)`, 30 R56); 0 where it has
no such field. -/
def Instr.len : Instr → Nat
  | .wRreg _ n => n
  | .wWreg _ d => d.length
  | .wRRxPlWid => 0
  | .wRRxPayload n => n
  | .wWTxPayload d => d.length
  | .wFlushTx => 0
  | .wFlushRx => 0
  | .csnLow => 0
  | .csnHigh => 0
  | .xfer _ => 0
  | .xferN d _ => d.length
  | .readReg _ n => n
  | .writeReg _ d => d.length
  | .flushTx => 0
  | .flushRx => 0
  | .readPlWid => 0
  | .readPayload n => n
  | .writePayload d => d.length
  | .ceHigh => 0
  | .ceLow => 0
  | .cePulse => 0

/-- A well-formed instruction for a given `MAXLEN`: its length does not exceed it (30 R56). Every other operand is well
formed by its type. -/
def Instr.wf (maxLen : Nat) (i : Instr) : Bool := decide (i.len ≤ maxLen)

/-- Whether an instruction is a sequenced command: one frame of 42 R75. The raw and chip-enable requests are not. -/
def Instr.sequenced : Instr → Bool
  | .wRreg _ _ => true
  | .wWreg _ _ => true
  | .wRRxPlWid => true
  | .wRRxPayload _ => true
  | .wWTxPayload _ => true
  | .wFlushTx => true
  | .wFlushRx => true
  | .csnLow => false
  | .csnHigh => false
  | .xfer _ => false
  | .xferN _ _ => false
  | .readReg _ _ => true
  | .writeReg _ _ => true
  | .flushTx => true
  | .flushRx => true
  | .readPlWid => true
  | .readPayload _ => true
  | .writePayload _ => true
  | .ceHigh => false
  | .ceLow => false
  | .cePulse => false

/-- Whether an instruction is a request the host may issue (30 R55), as against a wire command (30 R58). -/
def Instr.isRequest : Instr → Bool
  | .wRreg _ _ => false
  | .wWreg _ _ => false
  | .wRRxPlWid => false
  | .wRRxPayload _ => false
  | .wWTxPayload _ => false
  | .wFlushTx => false
  | .wFlushRx => false
  | .csnLow => true
  | .csnHigh => true
  | .xfer _ => true
  | .xferN _ _ => true
  | .readReg _ _ => true
  | .writeReg _ _ => true
  | .flushTx => true
  | .flushRx => true
  | .readPlWid => true
  | .readPayload _ => true
  | .writePayload _ => true
  | .ceHigh => true
  | .ceLow => true
  | .cePulse => true

end Sys2Proof
end

