-- ==== Sys2Proof/Decode.lean ====
section
/-! DEFINITION. The two encodings of the block and their decoders: the request record (spec 30 R55, R56, R60) and the
wire frame (30 R50 to R52, R58, R59, R61); then the encoder written from the same tables. -/

namespace Sys2Proof

/-- A request as the host gives it: a record, not a packed word; a field the request does not use is absent (30 R56). -/
structure Request where
  code : BitVec 4
  a : Option Byte
  n : Option Nat
  d : Option (List Byte)
  b : Option Byte
  r : Option Level
deriving DecidableEq, Repr

/-- What can stand on the port that feeds the block: a host request, or one wire command given as its frame, the bytes
on MOSI between `CSN↓` and `CSN↑` (30 R52; log entry 2). -/
inductive Item where
  | request (q : Request)
  | frame (bytes : List Byte)
deriving DecidableEq, Repr

/-- Why an item decodes to no instruction. -/
inductive DecodeError where
  /-- Request code 0x0 or 0xF (30 R60). -/
  | reservedCode
  /-- A field the request uses is absent, or one it does not use is present (30 R56; log entry 13). -/
  | malformedRequest
  /-- A frame with no byte, which has no command byte (30 R52; log entry 14). -/
  | emptyFrame
  /-- A command byte outside the table of 30 R58 (30 R59; log entry 14). -/
  | unknownCommand
  /-- A fixed command with a number of data bytes its request never gives (30 R61; log entry 14). -/
  | wrongFrameLength
deriving DecidableEq, Repr

/-- Decode a request record: the code of 30 R55, with exactly the fields of 30 R56 present. -/
def decodeRequest (q : Request) : Except DecodeError Instr :=
  match q.code.toNat, q.a, q.n, q.d, q.b, q.r with
  | 0x0, _, _, _, _, _ => .error .reservedCode
  | 0xF, _, _, _, _, _ => .error .reservedCode
  | 0x1, none, none, none, none, none => .ok .csnLow
  | 0x2, none, none, none, none, none => .ok .csnHigh
  | 0x3, none, none, none, some b, none => .ok (.xfer b)
  | 0x4, none, none, some d, none, some r => .ok (.xferN d r)
  | 0x5, some a, some n, none, none, none => .ok (.readReg a n)
  | 0x6, some a, none, some d, none, none => .ok (.writeReg a d)
  | 0x7, none, none, none, none, none => .ok .flushTx
  | 0x8, none, none, none, none, none => .ok .flushRx
  | 0x9, none, none, none, none, none => .ok .readPlWid
  | 0xA, none, some n, none, none, none => .ok (.readPayload n)
  | 0xB, none, none, some d, none, none => .ok (.writePayload d)
  | 0xC, none, none, none, none, none => .ok .ceHigh
  | 0xD, none, none, none, none, none => .ok .ceLow
  | 0xE, none, none, none, none, none => .ok .cePulse
  | _, _, _, _, _, _ => .error .malformedRequest

/-- Decode one wire frame: the command byte by the table of 30 R58, the data bytes by the frame's own length (R61). The
bytes of a read-path data phase are don't-care, so only their number is read. -/
def decodeFrame (w : WireCodes) : List Byte → Except DecodeError Instr
  | [] => .error .emptyFrame
  | c :: d =>
    if opField c = w.opRreg then .ok (.wRreg (addrField c) d.length)
    else if opField c = w.opWreg then .ok (.wWreg (addrField c) d)
    else if c = w.cmdRRxPlWid then (if d.length = 1 then .ok .wRRxPlWid else .error .wrongFrameLength)
    else if c = w.cmdRRxPayload then .ok (.wRRxPayload d.length)
    else if c = w.cmdWTxPayload then .ok (.wWTxPayload d)
    else if c = w.cmdFlushTx then (if d.length = 0 then .ok .wFlushTx else .error .wrongFrameLength)
    else if c = w.cmdFlushRx then (if d.length = 0 then .ok .wFlushRx else .error .wrongFrameLength)
    else .error .unknownCommand

/-- Decode an item of the port, under the command codes of the parameter record. -/
def decode (w : WireCodes) : Item → Except DecodeError Instr
  | .request q => decodeRequest q
  | .frame bytes => decodeFrame w bytes

/-- The request record with a code and no operand field. -/
def Request.bare (code : BitVec 4) : Request :=
  { code := code, a := none, n := none, d := none, b := none, r := none }

/-- Encode an instruction: a request as its record (30 R55, R56), a wire command as its frame with `dummy` on the read
path (30 R50 to R52, R58). -/
def encode (w : WireCodes) (dummy : Byte) : Instr → Item
  | .wRreg ad n => .frame (regCommand w.opRreg ad :: List.replicate n dummy)
  | .wWreg ad d => .frame (regCommand w.opWreg ad :: d)
  | .wRRxPlWid => .frame [w.cmdRRxPlWid, dummy]
  | .wRRxPayload n => .frame (w.cmdRRxPayload :: List.replicate n dummy)
  | .wWTxPayload d => .frame (w.cmdWTxPayload :: d)
  | .wFlushTx => .frame [w.cmdFlushTx]
  | .wFlushRx => .frame [w.cmdFlushRx]
  | .csnLow => .request (.bare 0x1)
  | .csnHigh => .request (.bare 0x2)
  | .xfer b => .request { Request.bare 0x3 with b := some b }
  | .xferN d r => .request { Request.bare 0x4 with d := some d, r := some r }
  | .readReg a n => .request { Request.bare 0x5 with a := some a, n := some n }
  | .writeReg a d => .request { Request.bare 0x6 with a := some a, d := some d }
  | .flushTx => .request (.bare 0x7)
  | .flushRx => .request (.bare 0x8)
  | .readPlWid => .request (.bare 0x9)
  | .readPayload n => .request { Request.bare 0xA with n := some n }
  | .writePayload d => .request { Request.bare 0xB with d := some d }
  | .ceHigh => .request (.bare 0xC)
  | .ceLow => .request (.bare 0xD)
  | .cePulse => .request (.bare 0xE)

/-- The request record of a table word: the code is given, every operand field the code uses is present and zero or
empty (log entry 4). -/
def zeroRequest (code : BitVec 4) : Request :=
  match code.toNat with
  | 0x3 => { Request.bare code with b := some 0 }
  | 0x4 => { Request.bare code with d := some [], r := some false }
  | 0x5 => { Request.bare code with a := some 0, n := some 0 }
  | 0x6 => { Request.bare code with a := some 0, d := some [] }
  | 0xA => { Request.bare code with n := some 0 }
  | 0xB => { Request.bare code with d := some [] }
  | _ => Request.bare code

/-- The frame of a table word: the command byte, and the one zero data byte that the read-payload-width command needs
(log entry 4). -/
def zeroFrame (w : WireCodes) (c : Byte) : List Byte :=
  if c = w.cmdRRxPlWid then [c, 0] else [c]

/-- The item that a word of spec/opcode_table.json stands for. The table's two encodings share their byte values: a word
whose value is a request code 0x1 to 0xE (30 R55), and every word of at most 4 bits, is that request; every other word is
a command byte on the wire (30 R58). DESIGN CHOICE, log entry 4. -/
def tableItem (c : WireCodes) (nbits w : Nat) : Item :=
  if nbits ≤ 4 ∨ (0x1 ≤ w ∧ w ≤ 0xE) then .request (zeroRequest (BitVec.ofNat 4 w))
  else .frame (zeroFrame c (BitVec.ofNat 8 w))

/-- The instruction the decoder reads from a table word of `nbits` bits under the default command codes; a value that
does not fit the table's one byte is no instruction. -/
def decodeTableWord (nbits w : Nat) : Option Instr :=
  if w < 256 then
    match decode .defaults (tableItem .defaults nbits w) with
    | .ok i => some i
    | .error _ => none
  else none

end Sys2Proof
end

