-- ==== Sys2Proof/Machine/State.lean ====
section
/-! DEFINITION. The state of the block (spec 10 R17 to R22), what a run observes (70 R129), the parameter record, the
host port, and the reset state (10 R33, 70 R115). -/

namespace Sys2Proof.Machine

/-- The four output lines (00 R10, 10 R18). -/
inductive Line where
  | sck | mosi | csn | ce
deriving DecidableEq, Repr

/-- The sequencer's position `PHASE` (10 R20). -/
inductive Phase where
  | idle
  | select
  | command
  /-- `DATA(k, n)`: data byte `k` of `n`, `k` from 0. -/
  | data (k n : Nat)
  | release
  /-- `ENABLE`: a chip-enable micro-step. -/
  | enable
deriving DecidableEq, Repr

/-- An event of the bus trace (00 R10, R11). -/
inductive Event where
  /-- `SCK↑(m)`, with the level `m` of MOSI at that moment. -/
  | sckUp (m : Level)
  | sckDown
  | csnDown
  | csnUp
  | ceUp
  | ceDown
  /-- `Sample(s)`: the level read from MISO. -/
  | sample (s : Level)
deriving DecidableEq, Repr

/-- The result of a request (00 R13, 30 R57); `none` is the spec's `⊥`. -/
structure Result where
  status : Option Byte
  data : Option (List Byte)
deriving DecidableEq, Repr

/-- Why the machine stops with a fault: never. The block raises no exception and detects no error (60 R102), so the type
has no constructor (log entry 15). -/
inductive Fault where
deriving DecidableEq, Repr

/-- Why the model gives an item or an instruction no meaning in a state. Each is safe: it shuts runs out and adds none. -/
inductive Refusal where
  /-- An arm of `exec` that has no meaning yet; raised by no arm of this model. Safe. -/
  | notModelled (mnemonic : String)
  /-- Raised by every instruction when `PHASE` is not `IDLE` (60 R104: the host has no issue step). Safe. Log entry 11. -/
  | notIdle
  /-- `BadConfig`, raised by every instruction (60 R103; 30 R53 or `MAXLEN < 5`). Safe. -/
  | badConfig
  /-- `ReservedCode`, raised by `step` for request code 0x0 or 0xF (60 R103, 30 R60). Safe. -/
  | reservedCode
  /-- `TooLong`, raised by an instruction whose length exceeds `MAXLEN` (60 R103). Safe. -/
  | tooLong
  /-- `OpenFrame`, raised by a sequenced command when `CSN = 0` (60 R103, 42 R75). Safe. -/
  | openFrame
  /-- Raised by `step` for a record that is no request of 30 R56. Safe. Log entry 13. -/
  | malformedRequest
  /-- Raised by `step` for a frame that no wire command of 30 R58 sends. Safe. Log entry 14. -/
  | noWireCommand
deriving DecidableEq, Repr

/-- The state: the nine registers of 10 R17, the observation of 70 R129, the parameter record of 00 R7, and the model's
own fields `port`, `miso`, `samples` (log entries 3 and 6). -/
@[ext]
structure State where
  /-- Clock line (10 R18). -/
  sck : Level
  /-- Data-out line (10 R18). -/
  mosi : Level
  /-- Chip-select line, active low (10 R18). -/
  csn : Level
  /-- Chip-enable line (10 R18, 41 R70). -/
  ce : Level
  /-- Outbound word (10 R19). -/
  sho : Byte
  /-- Inbound word (10 R19). -/
  shi : Byte
  /-- Position being transferred (10 R19). -/
  bit : BitVec 3
  /-- Sequencer position (10 R20). -/
  phase : Phase
  /-- Status capture register (10 R21). -/
  stat : Byte
  /-- The bus trace, oldest event first (00 R10, 70 R129). -/
  trace : List Event
  /-- The results of the requests performed, oldest first (70 R129). -/
  results : List Result
  /-- The parameter record, written by nothing (10 R26). -/
  params : Params
  /-- What the host has put on the port, oldest first (log entry 3). -/
  port : List Item
  /-- The MISO levels of the next samples, oldest first; after them each sample is a free value (log entry 6). -/
  miso : List Level
  /-- How many samples have been taken; the index of the free value (log entry 6). -/
  samples : Nat
deriving DecidableEq, Repr

/-- The state right after reset with a given parameter record (10 R33, 70 R115). `MOSI`, `SHO`, `SHI`, `BIT` and `STAT`
hold no value there by the spec; the model names 0 for them (DESIGN CHOICE, log entry 7). -/
def State.resetWith (p : Params) : State where
  sck := false
  mosi := false
  csn := true
  ce := false
  sho := 0
  shi := 0
  bit := 0
  phase := .idle
  stat := 0
  trace := []
  results := []
  params := p
  port := []
  miso := []
  samples := 0

/-- The state right after reset, with the defaults of 00 R7 and a free constant for each open parameter (log entry 10). -/
def State.reset : State := State.resetWith Params.atReset

end Sys2Proof.Machine
end

