-- ==== Sys2Proof/Machine/Ops.lean ====
section
/-! DEFINITION. The primitives of spec 00 R10 to R12, the micro-steps built from them, the bit cycle, the byte transfer,
the data phase and the frame (40 R64, R68, R69; 42 R75), the refusal check (60 R103, R104, R106), and how a request is
performed. There is no exception to take and none to return from (60 R102, R107, R108). -/

namespace Sys2Proof.Machine

/-- `drive(SCK, b)`: an edge event when the level changes, `SCK↑` with the level MOSI has (00 R10). -/
def driveSck (b : Level) (s : State) : State :=
  if s.sck = b then s
  else { s with sck := b, trace := s.trace ++ [if b then .sckUp s.mosi else .sckDown] }

/-- `drive(MOSI, b)`: the level changes, no event (00 R10). -/
def driveMosi (b : Level) (s : State) : State := { s with mosi := b }

/-- `drive(CSN, b)` (00 R10). -/
def driveCsn (b : Level) (s : State) : State :=
  if s.csn = b then s
  else { s with csn := b, trace := s.trace ++ [if b then .csnUp else .csnDown] }

/-- `drive(CE, b)` (00 R10). -/
def driveCe (b : Level) (s : State) : State :=
  if s.ce = b then s
  else { s with ce := b, trace := s.trace ++ [if b then .ceUp else .ceDown] }

/-- `drive(P, b)` (00 R10). -/
def drive (l : Line) (b : Level) (s : State) : State :=
  match l with
  | .sck => driveSck b s
  | .mosi => driveMosi b s
  | .csn => driveCsn b s
  | .ce => driveCe b s

/-- The level on MISO at the sample `k` samples from now: what the outside has given, else the free value of that sample
(00 R11, 10 R16; log entry 6). -/
def State.nextLevel (s : State) (k : Nat) : Level := s.miso.getD k (Config.freeMiso (s.samples + k))

/-- `sample()` followed by `SHI <- (SHI << 1) | s` (00 R11, 40 R64): read MISO, append `Sample(s)`, shift it in at bit 0. -/
def sampleShift (s : State) : State :=
  { s with
    shi := (s.shi <<< 1) ||| levelByte (s.nextLevel 0)
    trace := s.trace ++ [.sample (s.nextLevel 0)]
    miso := s.miso.tail
    samples := s.samples + 1 }

/-- A timing parameter that a `wait` names (00 R7). -/
inductive Delay where
  | settle
deriving DecidableEq, Repr

/-- One micro-step of a request: one line of the pseudocode of files 40 to 42. -/
inductive Micro where
  /-- `PHASE <- p`. -/
  | phase (p : Phase)
  /-- `drive(P, b)`. -/
  | drive (l : Line) (b : Level)
  /-- `SHO <- b`. -/
  | loadSho (b : Byte)
  /-- `SHI <- 0`. -/
  | clearShi
  /-- `BIT` takes its next value in the loop of 40 R68. -/
  | setBit (k : BitVec 3)
  /-- `drive(MOSI, SHO[BIT])`. -/
  | driveBit
  /-- `s <- sample()` and `SHI <- (SHI << 1) | s`. -/
  | sampleShift
  /-- `STAT <- st`, with `st` the byte just received. -/
  | captureStat
  /-- `R <- R ++ {x}`, with `x` the byte just received. -/
  | keep
  /-- `wait(T)`. -/
  | wait (t : Delay)
deriving DecidableEq, Repr

/-- A request being performed: the block's state and the request's local list `R`. -/
structure Run where
  st : State
  buf : List Byte
deriving DecidableEq, Repr

/-- The effect of one micro-step. `wait` changes nothing (00 R12, 70 R128). -/
def Micro.run (m : Micro) (x : Run) : Run :=
  match m with
  | .phase p => { x with st := { x.st with phase := p } }
  | .drive l b => { x with st := Machine.drive l b x.st }
  | .loadSho b => { x with st := { x.st with sho := b } }
  | .clearShi => { x with st := { x.st with shi := 0 } }
  | .setBit k => { x with st := { x.st with bit := k } }
  | .driveBit => { x with st := driveMosi (x.st.sho.getLsbD x.st.bit.toNat) x.st }
  | .sampleShift => { x with st := Machine.sampleShift x.st }
  | .captureStat => { x with st := { x.st with stat := x.st.shi } }
  | .keep => { x with buf := x.buf ++ [x.st.shi] }
  | .wait _ => x

/-- Run micro-steps in order. -/
def runMicros : List Micro → Run → Run
  | [], x => x
  | m :: ms, x => runMicros ms (m.run x)

/-- The bit cycle of 40 R64 for bit `k` of `SHO`. -/
def bitCycle (k : BitVec 3) : List Micro :=
  [.setBit k, .driveBit, .drive .sck true, .sampleShift, .drive .sck false]

/-- The transfer of one byte, 40 R68 without its phases: `BIT` from 7 down to 0. -/
def byteMicros (b : Byte) : List Micro :=
  [.loadSho b, .clearShi] ++ bitCycle 7 ++ bitCycle 6 ++ bitCycle 5 ++ bitCycle 4 ++ bitCycle 3 ++ bitCycle 2 ++
    bitCycle 1 ++ bitCycle 0

/-- The settle point before data byte `k` (40 R69, 42 R75): on the read path, between consecutive bytes only. -/
def settlePoint (r : Level) (k : Nat) : List Micro := if r ∧ 0 < k then [.wait .settle] else []

/-- The bytes of a data phase from byte `k` of `n` on (42 R75, and 40 R69 with the phases of log entry 12). -/
def dataMicrosFrom (r : Level) (n : Nat) : Nat → List Byte → List Micro
  | _, [] => []
  | k, b :: d =>
    [.phase (.data k n)] ++ settlePoint r k ++ byteMicros b ++ [.keep] ++ dataMicrosFrom r n (k + 1) d

/-- The data phase that sends the bytes `d` (42 R75). -/
def dataMicros (r : Level) (d : List Byte) : List Micro := dataMicrosFrom r d.length 0 d

/-- `FRAME(c, D, r)` of 42 R75 after its `OpenFrame` check. -/
def frameMicros (c : Byte) (d : List Byte) (r : Level) : List Micro :=
  [.phase .select, .drive .csn false, .phase .command] ++ byteMicros c ++ [.captureStat] ++ dataMicros r d ++
    [.phase .release, .drive .csn true, .phase .idle]

/-- The refusal of an instruction with length `len`, if any; `framed` says whether it is a sequenced command. The order
is that of 60 R106, after the check that the host may issue at all (60 R104; log entry 11). -/
def refusalOf (framed : Bool) (len : Nat) (s : State) : Option Refusal :=
  if s.phase ≠ .idle then some .notIdle
  else if s.params.wf = false then some .badConfig
  else if s.params.maxLen < len then some .tooLong
  else if framed ∧ s.csn = false then some .openFrame
  else none

/-- `return (s, D)`: the request has ended and its result is delivered to the host port (00 R12, 30 R57). -/
def deliver (reply : Run → Result) (x : Run) : State :=
  { x.st with results := x.st.results ++ [reply x] }

/-- Perform a request: refuse it with no micro-step (60 R103), or run its micro-steps to the end and deliver its
result (20 R45, R46). -/
def perform (framed : Bool) (len : Nat) (ms : List Micro) (reply : Run → Result) (s : State) :
    Host.Outcome State Fault Refusal :=
  match refusalOf framed len s with
  | some r => .refused r
  | none => .next (deliver reply (runMicros ms { st := s, buf := [] }))

/-- The result `(⊥, ⊥)`. -/
def replyNone (_ : Run) : Result := { status := none, data := none }

/-- The result `(⊥, R)`. -/
def replyData (x : Run) : Result := { status := none, data := some x.buf }

/-- The result `(st, ⊥)`: the status byte of the command, which `STAT` holds (42 R76). -/
def replyStatus (x : Run) : Result := { status := some x.st.stat, data := none }

/-- The result `(st, R)`. -/
def replyStatusData (x : Run) : Result := { status := some x.st.stat, data := some x.buf }

/-- A sequenced command: one frame (42 R75). -/
def sequenced (len : Nat) (c : Byte) (d : List Byte) (r : Level) (reply : Run → Result) (s : State) :
    Host.Outcome State Fault Refusal :=
  perform true len (frameMicros c d r) reply s

/-- A frame whose data phase sends `d` and discards what it receives (42 R76). -/
def writeFrame (c : Byte) (d : List Byte) (s : State) : Host.Outcome State Fault Refusal :=
  sequenced d.length c d false replyStatus s

/-- A frame whose data phase receives `n` bytes while sending `DUMMY` (42 R78). -/
def readFrame (c : Byte) (n : Nat) (s : State) : Host.Outcome State Fault Refusal :=
  sequenced n c (dummies s.params n) true replyStatusData s

/-- The refusal that names a decode error. -/
def decodeRefusal : DecodeError → Refusal
  | .reservedCode => .reservedCode
  | .malformedRequest => .malformedRequest
  | .emptyFrame => .noWireCommand
  | .unknownCommand => .noWireCommand
  | .wrongFrameLength => .noWireCommand

/-- The refusal of an item that decodes to no instruction: the checks that come before its own (60 R104, R106). -/
def rejectItem (e : DecodeError) (s : State) : Refusal :=
  if s.phase ≠ .idle then .notIdle
  else if s.params.wf = false then .badConfig
  else decodeRefusal e

end Sys2Proof.Machine
end

