-- ==== Sys2Proof/Machine/ChipEnable.lean ====
section
/-! DEFINITION. The chip-enable requests (spec 41 R70 to R73). -/

namespace Sys2Proof.Machine

/-- The micro-steps of `CE_HIGH` (R71) and `CE_LOW` (R72), for the level driven. -/
def ceMicros (b : Level) : List Micro := [.phase .enable, .drive .ce b, .phase .idle]

/-- `CE_HIGH` (R71). -/
def execCeHigh (s : State) : Host.Outcome State Fault Refusal := perform false 0 (ceMicros true) replyNone s

/-- `CE_LOW` (R72). -/
def execCeLow (s : State) : Host.Outcome State Fault Refusal := perform false 0 (ceMicros false) replyNone s

/-- The micro-steps of `CE_PULSE` (R73), for the level of `CE` at its start and the variant `MINIMIZE_CURRENT`. -/
def cePulseMicros (ce minimize : Bool) : List Micro :=
  [.phase .enable] ++ (if ce then [.drive .ce false] else []) ++ [.drive .ce true] ++
    (if minimize then [.drive .ce false] else []) ++ [.phase .idle]

/-- `CE_PULSE` (R73). -/
def execCePulse (s : State) : Host.Outcome State Fault Refusal :=
  perform false 0 (cePulseMicros s.ce s.params.minimizeCurrent) replyNone s

end Sys2Proof.Machine
end

