-- ==== Sys2Proof/Machine/Sequencer.lean ====
section
/-! DEFINITION. The sequenced commands as requests (spec 42 R74 to R84). -/

namespace Sys2Proof.Machine

/-- `READ_REG a, n` (R78). -/
def execReadReg (a : Byte) (n : Nat) (s : State) : Host.Outcome State Fault Refusal :=
  readFrame (readCommand s.params (effAddr a)) n s

/-- `WRITE_REG a, D` (R79). -/
def execWriteReg (a : Byte) (d : List Byte) (s : State) : Host.Outcome State Fault Refusal :=
  writeFrame (writeCommand s.params (effAddr a)) d s

/-- `FLUSH_TX` (R80). -/
def execFlushTx (s : State) : Host.Outcome State Fault Refusal :=
  writeFrame s.params.codes.cmdFlushTx [] s

/-- `FLUSH_RX` (R81). -/
def execFlushRx (s : State) : Host.Outcome State Fault Refusal :=
  writeFrame s.params.codes.cmdFlushRx [] s

/-- `READ_PL_WID` (R82): one data byte. -/
def execReadPlWid (s : State) : Host.Outcome State Fault Refusal :=
  sequenced 0 s.params.codes.cmdRRxPlWid (dummies s.params 1) true replyStatusData s

/-- `READ_PAYLOAD n` (R83). -/
def execReadPayload (n : Nat) (s : State) : Host.Outcome State Fault Refusal :=
  readFrame s.params.codes.cmdRRxPayload n s

/-- `WRITE_PAYLOAD D` (R84). -/
def execWritePayload (d : List Byte) (s : State) : Host.Outcome State Fault Refusal :=
  writeFrame s.params.codes.cmdWTxPayload d s

end Sys2Proof.Machine
end

