-- ==== Sys2Proof/Machine/ShiftEngine.lean ====
section
/-! DEFINITION. The shift engine and chip-select requests (spec 40 R66 to R69). -/

namespace Sys2Proof.Machine

/-- The micro-steps of `CSN_LOW` (R66). -/
def csnLowMicros : List Micro := [.phase .select, .drive .csn false, .phase .idle]

/-- `CSN_LOW` (R66). -/
def execCsnLow (s : State) : Host.Outcome State Fault Refusal := perform false 0 csnLowMicros replyNone s

/-- The micro-steps of `CSN_HIGH` (R67). -/
def csnHighMicros : List Micro := [.phase .release, .drive .csn true, .phase .idle]

/-- `CSN_HIGH` (R67). -/
def execCsnHigh (s : State) : Host.Outcome State Fault Refusal := perform false 0 csnHighMicros replyNone s

/-- The micro-steps of `XFER b` (R68). -/
def xferMicros (b : Byte) : List Micro := [.phase (.data 0 1)] ++ byteMicros b ++ [.keep, .phase .idle]

/-- `XFER b` (R68). -/
def execXfer (b : Byte) (s : State) : Host.Outcome State Fault Refusal :=
  perform false 0 (xferMicros b) replyData s

/-- The micro-steps of `XFER_N D, r` (R69): none for an empty list. -/
def xferNMicros (d : List Byte) (r : Level) : List Micro :=
  match d with
  | [] => []
  | b :: rest => dataMicros r (b :: rest) ++ [.phase .idle]

/-- `XFER_N D, r` (R69). -/
def execXferN (d : List Byte) (r : Level) (s : State) : Host.Outcome State Fault Refusal :=
  perform false d.length (xferNMicros d r) replyData s

end Sys2Proof.Machine
end

