-- ==== Sys2Proof/Machine/Wire.lean ====
section
/-! DEFINITION. The wire commands of spec 30 R58 as instructions of their own: each performs the one frame of 30 R52 and
42 R75 that its row's rule gives it, with the status captured and returned as that rule says (log entry 2). -/

namespace Sys2Proof.Machine

/-- `W_RREG` (row rule R78): command byte `OP_RREG aaaaa`, `n` read-path bytes. -/
def execWRreg (ad : Addr5) (n : Nat) (s : State) : Host.Outcome State Fault Refusal :=
  readFrame (readCommand s.params ad) n s

/-- `W_WREG` (row rule R79): command byte `OP_WREG aaaaa`, the bytes of `d`. -/
def execWWreg (ad : Addr5) (d : List Byte) (s : State) : Host.Outcome State Fault Refusal :=
  writeFrame (writeCommand s.params ad) d s

/-- `W_R_RX_PL_WID` (row rule R82): one read-path byte. -/
def execWRRxPlWid (s : State) : Host.Outcome State Fault Refusal :=
  sequenced 0 s.params.codes.cmdRRxPlWid (dummies s.params 1) true replyStatusData s

/-- `W_R_RX_PAYLOAD` (row rule R83): `n` read-path bytes. -/
def execWRRxPayload (n : Nat) (s : State) : Host.Outcome State Fault Refusal :=
  readFrame s.params.codes.cmdRRxPayload n s

/-- `W_W_TX_PAYLOAD` (row rule R84): the bytes of `d`. -/
def execWWTxPayload (d : List Byte) (s : State) : Host.Outcome State Fault Refusal :=
  writeFrame s.params.codes.cmdWTxPayload d s

/-- `W_FLUSH_TX` (row rule R80): the command byte alone. -/
def execWFlushTx (s : State) : Host.Outcome State Fault Refusal :=
  writeFrame s.params.codes.cmdFlushTx [] s

/-- `W_FLUSH_RX` (row rule R81): the command byte alone. -/
def execWFlushRx (s : State) : Host.Outcome State Fault Refusal :=
  writeFrame s.params.codes.cmdFlushRx [] s

end Sys2Proof.Machine
end

