-- ==== Sys2Proof/Machine/Dispatch.lean ====
section
/-! DEFINITION. One arm per instruction. -/

namespace Sys2Proof.Machine

def exec (i : Instr) (s : State) : Host.Outcome State Fault Refusal :=
  match i with
  | .wRreg ad n => Sys2Proof.Machine.execWRreg ad n s
  | .wWreg ad d => Sys2Proof.Machine.execWWreg ad d s
  | .wRRxPlWid => Sys2Proof.Machine.execWRRxPlWid s
  | .wRRxPayload n => Sys2Proof.Machine.execWRRxPayload n s
  | .wWTxPayload d => Sys2Proof.Machine.execWWTxPayload d s
  | .wFlushTx => Sys2Proof.Machine.execWFlushTx s
  | .wFlushRx => Sys2Proof.Machine.execWFlushRx s
  | .csnLow => Sys2Proof.Machine.execCsnLow s
  | .csnHigh => Sys2Proof.Machine.execCsnHigh s
  | .xfer b => Sys2Proof.Machine.execXfer b s
  | .xferN d r => Sys2Proof.Machine.execXferN d r s
  | .readReg a n => Sys2Proof.Machine.execReadReg a n s
  | .writeReg a d => Sys2Proof.Machine.execWriteReg a d s
  | .flushTx => Sys2Proof.Machine.execFlushTx s
  | .flushRx => Sys2Proof.Machine.execFlushRx s
  | .readPlWid => Sys2Proof.Machine.execReadPlWid s
  | .readPayload n => Sys2Proof.Machine.execReadPayload n s
  | .writePayload d => Sys2Proof.Machine.execWritePayload d s
  | .ceHigh => Sys2Proof.Machine.execCeHigh s
  | .ceLow => Sys2Proof.Machine.execCeLow s
  | .cePulse => Sys2Proof.Machine.execCePulse s

end Sys2Proof.Machine
end

