-- ==== Sys2Proof/Machine/Step.lean ====
section
/-! DEFINITION. One step of the machine: the block accepts the oldest item of the port and performs it to its end
(spec 20 R45, 60 R104, 70 R129). -/

namespace Sys2Proof.Machine

/-- With an empty port the block waits in its state (70 R115); otherwise it takes the oldest item and performs the
instruction it decodes to, or refuses it. -/
def step (s : State) : Host.Outcome State Fault Refusal :=
  match s.port with
  | [] => .next s
  | item :: rest =>
    match decode s.params.codes item with
    | .ok i => exec i { s with port := rest }
    | .error e => .refused (rejectItem e s)

/-- The state with the item of a table word put first on the port, where `step` takes its next item. -/
def State.withFetchWord (s : State) (nbits w : Nat) : State :=
  { s with port := tableItem s.params.codes nbits w :: s.port }

end Sys2Proof.Machine
end

