-- ==== Sys2Proof/Machine/Flags.lean ====
section
/-! DEFINITION. The block has no flag and interprets no bit of a byte it moves (spec 10 R24); the chip's flags travel in
the status byte, and here is what a client reads in it (10 R25, 43 R92). -/

namespace Sys2Proof.Machine

/-- Whether a status byte has a bit of the mask set: `s & m ≠ 0`. -/
def statusHas (m s : Byte) : Bool := decide (s &&& m ≠ 0)

/-- The source's AcknowledgmentResult (43 R92). -/
inductive AckResult where
  | success
  | failed
  | failedRetryInProgress
deriving DecidableEq, Repr

/-- Classification of a status byte (43 R92): TX-done wins over max-retry (60 R106). -/
def classify (p : Params) (s : Byte) : AckResult :=
  if statusHas p.txDs s then .success
  else if statusHas p.maxRt s then .failed
  else .failedRetryInProgress

end Sys2Proof.Machine
end

