-- ==== Sys2Proof/Machine/Client.lean ====
section
/-! DEFINITION. The pseudo-requests of spec 30 R63 and the client sequences at the block's boundary (spec 43): host programs
over the fourteen requests, with the client context of R89. They are no requests of the block (92 D33) and the context is
no state of it (log entry 19). -/

namespace Sys2Proof.Machine

/-- A register's label as a request address: its `REGADDR` value (30 R62). -/
def labelAddr (p : Params) (r : RegName) : Byte := (p.regs.addr r).setWidth 8

/-- `READ_STATUS` is `READ_REG STATUS, 1` (30 R63, 43 R91). -/
def readStatus (p : Params) : Instr := .readReg (labelAddr p .status) 1

/-- `CLEAR_STATUS m` is `WRITE_REG STATUS, {m}` (30 R63). -/
def clearStatus (p : Params) (m : Byte) : Instr := .writeReg (labelAddr p .status) [m]

/-- `WRITE_REG1 a, v` is `WRITE_REG a, {v}` (30 R63). -/
def writeReg1 (a v : Byte) : Instr := .writeReg a [v]

/-- A host program: issue requests one at a time and go on from each result (43 R90). -/
inductive HostProg (α : Type) where
  | done (a : α)
  | issue (i : Instr) (k : Result → HostProg α)

/-- The result the host port got last. -/
def lastResult (s : State) : Result := s.results.getLastD { status := none, data := none }

/-- Perform a host program; it ends at the first refusal (60 R107). -/
def HostProg.run {α : Type} : HostProg α → State → Host.Outcome (α × State) Fault Refusal
  | .done a, s => .next (a, s)
  | .issue i k, s =>
    match exec i s with
    | .next t => (k (lastResult t)).run t
    | .fault f => .fault f
    | .refused r => .refused r

/-- The requests a host program issues from a state, in order. -/
def HostProg.requests {α : Type} : HostProg α → State → List Instr
  | .done _, _ => []
  | .issue i k, s =>
    i :: match exec i s with
      | .next t => (k (lastResult t)).requests t
      | .fault _ => []
      | .refused _ => []

/-- One host program after another. -/
def HostProg.andThen {α β : Type} : HostProg α → (α → HostProg β) → HostProg β
  | .done a, f => f a
  | .issue i k, f => .issue i fun r => (k r).andThen f

/-- Issue a fixed list of requests. -/
def issueAll {α : Type} (l : List Instr) (a : α) : HostProg α :=
  l.foldr (fun i rest => .issue i fun _ => rest) (.done a)

/-- The first data byte of a result. Every result it is used on has one (42 R78, R82); 0 stands for none. -/
def Result.dataByte (r : Result) : Byte := (r.data.getD []).headD 0

/-- The data bytes of a result. -/
def Result.bytes (r : Result) : List Byte := r.data.getD []

/-- The client's `mode` (43 R89). -/
inductive Mode where
  | none | tx | rx
deriving DecidableEq, Repr

/-- The client's `power` (43 R89). -/
inductive Power where
  | off | on
deriving DecidableEq, Repr

/-- The CRC encoding that CONFIG holds (10 R30, 43 R98). -/
inductive Crc where
  | off | oneByte | twoBytes
deriving DecidableEq, Repr

/-- The client context (43 R89). -/
structure Client where
  mode : Mode
  power : Power
  crc : Crc
  vAa : Byte
  vFeat : Byte
  vDynpd : Byte
  vSize : Byte
  /-- `channel`, 0 to 127. -/
  channel : Fin 128
  vRf : Byte
  /-- The 5-byte transmit address. -/
  tx : Vector Byte 5
  /-- The 5-byte address of pipe 1. -/
  p1 : Vector Byte 5
deriving DecidableEq, Repr

/-- The client context at session start, for the configuration values of `c`: no mode, power off (43 R89). -/
def Client.atStart (c : Client) : Client := { c with mode := .none, power := .off }

/-- The CONFIG byte of 43 R98: bit 3 enables CRC, bit 2 selects 2 bytes, bit 1 powers up, bit 0 selects receiver. -/
def cfg (c : Client) (p : Power) : Byte :=
  (if c.crc = .off then 0 else 0x08) ||| (if c.crc = .twoBytes then 0x04 else 0) |||
    (if p = .on then 0x02 else 0) ||| (if c.mode = .rx then 0x01 else 0)

/-- What `TRANSMIT` and `RETRANSMIT` do from the pulse on (43 R93, R94). -/
def pulseAndClassify (p : Params) : HostProg AckResult :=
  .issue .cePulse fun _ => .issue (readStatus p) fun r =>
    .issue (clearStatus p (p.txDs ||| p.maxRt)) fun _ => .done (classify p r.dataByte)

/-- `TRANSMIT D` (43 R93). -/
def transmit (p : Params) (d : List Byte) : HostProg AckResult :=
  .issue (.writePayload d) fun _ => pulseAndClassify p

/-- `RETRANSMIT` (43 R94). -/
def retransmit (p : Params) : HostProg AckResult := pulseAndClassify p

/-- `CHECK_ACK` (43 R95). -/
def checkAck (p : Params) : HostProg AckResult :=
  .issue (readStatus p) fun r => .done (classify p r.dataByte)

/-- The caller's buffer after `buffer[0 .. m-1] <- P` (43 R96). -/
def copyInto (buffer P : List Byte) : List Byte := P ++ buffer.drop P.length

/-- `GET_PAYLOAD maxSize` into the caller's buffer: the status byte and the buffer after (43 R96). -/
def getPayload (p : Params) (maxSize : Nat) (buffer : List Byte) : HostProg (Byte × List Byte) :=
  .issue .readPlWid fun w =>
    .issue (.readPayload (min w.dataByte.toNat maxSize)) fun P =>
      .issue (readStatus p) fun r =>
        if statusHas p.rxDr r.dataByte then
          .issue (clearStatus p p.rxDr) fun _ => .done (r.dataByte, copyInto buffer P.bytes)
        else .done (r.dataByte, copyInto buffer P.bytes)

/-- `DATA_READY` (43 R97). -/
def dataReady (p : Params) : HostProg Bool :=
  .issue (readStatus p) fun r => .done (statusHas p.rxDr r.dataByte)

/-- The requests of `POWER_UP` (43 R99). -/
def powerUpRequests (p : Params) (c : Client) : List Instr :=
  if c.power = .on then []
  else writeReg1 (labelAddr p .config) (cfg c .on) :: (if c.mode = .rx then [.ceHigh] else [])

/-- `POWER_UP` (43 R99): the client context after. -/
def powerUp (p : Params) (c : Client) : HostProg Client :=
  issueAll (powerUpRequests p c) { c with power := .on }

/-- The requests of `POWER_DOWN` (43 R100). -/
def powerDownRequests (p : Params) (c : Client) : List Instr :=
  if c.power = .off then []
  else (if c.mode = .rx then [.ceLow] else []) ++ [writeReg1 (labelAddr p .config) (cfg c .off)]

/-- `POWER_DOWN` (43 R100): the client context after. -/
def powerDown (p : Params) (c : Client) : HostProg Client :=
  issueAll (powerDownRequests p c) { c with power := .off }

/-- The receiver's default for the address of pipe 1 (43 R101). -/
def rxDefaultP1 : Vector Byte 5 := #v[0x01, 0x02, 0x03, 0x04, 0x01]

/-- The client context after the first steps of a start sequence: the mode, and the pipe-1 address for a receiver
(43 R101). -/
def startContext (m : Mode) (c : Client) : Client :=
  { c with mode := m, p1 := if m = .rx then rxDefaultP1 else c.p1 }

/-- The requests of a start sequence before its `POWER_UP`, for the context of `startContext` (43 R101). -/
def startRequests (p : Params) (c : Client) : List Instr :=
  [writeReg1 (labelAddr p .rxPwP2) 0x00, writeReg1 (labelAddr p .rxPwP3) 0x00, writeReg1 (labelAddr p .rxPwP4) 0x00,
   writeReg1 (labelAddr p .rxPwP5) 0x00, writeReg1 (labelAddr p .enAa) c.vAa, writeReg1 (labelAddr p .feature) c.vFeat,
   writeReg1 (labelAddr p .enRxAddr) 0x03, writeReg1 (labelAddr p .setupRetr) 0x1F,
   writeReg1 (labelAddr p .setupAw) 0x03, writeReg1 (labelAddr p .dynpd) c.vDynpd,
   writeReg1 (labelAddr p .feature) c.vFeat, writeReg1 (labelAddr p .rxPwP1) c.vSize,
   writeReg1 (labelAddr p .rfCh) (BitVec.ofNat 8 c.channel.val), writeReg1 (labelAddr p .rfSetup) c.vRf,
   .writeReg (labelAddr p .txAddr) c.tx.toList, .writeReg (labelAddr p .rxAddrP0) c.tx.toList,
   .writeReg (labelAddr p .rxAddrP1) c.p1.toList, .flushTx, .flushRx, clearStatus p (p.rxDr ||| p.txDs ||| p.maxRt)]

/-- `START_TX` (for `m = tx`) and `START_RX` (for `m = rx`): the client context after (43 R101). -/
def startAs (p : Params) (m : Mode) (c : Client) : HostProg Client :=
  (issueAll (startRequests p (startContext m c)) (startContext m c)).andThen (powerUp p)

end Sys2Proof.Machine
end

