-- ==== Sys2Proof/Machine/Text.lean ====
section
/-! DEFINITION. The textual syntax of requests (spec 30 R62) and the pseudo-requests as names for their expansions
(30 R63): a lexer, a parser and a printer over lists of characters (log entry 21). -/

namespace Sys2Proof.Machine

/-- The character that opens a byte list, U+007B. -/
def braceOpen : Char := Char.ofNat 123

/-- The character that closes a byte list, U+007D. -/
def braceClose : Char := Char.ofNat 125

/-- A token of a line. -/
inductive Token where
  | word (cs : List Char)
  | comma
  | open
  | close
deriving DecidableEq, Repr

/-- The word collected so far (in reverse), as a token if it is not empty. -/
def flushWord : List Char → List Token
  | [] => []
  | c :: cs => [.word (c :: cs).reverse]

/-- The tokens of a line; `;` starts a comment (30 R62). -/
def lexLine (acc : List Char) : List Char → List Token
  | [] => flushWord acc
  | c :: cs =>
    if c = ';' then flushWord acc
    else if c = ' ' ∨ c = '\t' ∨ c = '\r' then flushWord acc ++ lexLine [] cs
    else if c = ',' then flushWord acc ++ .comma :: lexLine [] cs
    else if c = braceOpen then flushWord acc ++ .open :: lexLine [] cs
    else if c = braceClose then flushWord acc ++ .close :: lexLine [] cs
    else lexLine (c :: acc) cs

/-- An operand as written. -/
inductive Operand where
  | byte (b : Byte)
  | num (n : Nat)
  | bytes (d : List Byte)
  | label (r : RegName)
deriving DecidableEq, Repr

/-- The value of a hexadecimal digit. -/
def hexValue (c : Char) : Option Nat :=
  if '0' ≤ c ∧ c ≤ '9' then some (c.toNat - 48)
  else if 'A' ≤ c ∧ c ≤ 'F' then some (c.toNat - 55)
  else if 'a' ≤ c ∧ c ≤ 'f' then some (c.toNat - 87)
  else none

/-- A byte, written `0xNN`. -/
def readByte : List Char → Option Byte
  | ['0', 'x', h, l] =>
    match hexValue h, hexValue l with
    | some a, some b => some (BitVec.ofNat 8 (16 * a + b))
    | _, _ => none
  | _ => none

/-- A length, written as a decimal number, or `r`, written as `0` or `1`. Leading zeros are read over, so `007` is 7 and `01`
is 1: DESIGN CHOICE, log entry 18. -/
def readNat (cs : List Char) : Option Nat :=
  if cs ≠ [] ∧ cs.all Char.isDigit then some (Nat.ofDigitChars 10 cs 0) else none

/-- The labels of 10 R27. -/
def regLabels : List (String × RegName) :=
  [("CONFIG", .config), ("EN_AA", .enAa), ("EN_RXADDR", .enRxAddr), ("SETUP_AW", .setupAw),
   ("SETUP_RETR", .setupRetr), ("RF_CH", .rfCh), ("RF_SETUP", .rfSetup), ("STATUS", .status),
   ("OBSERVE_TX", .observeTx), ("CD", .cd), ("RX_ADDR_P0", .rxAddrP0), ("RX_ADDR_P1", .rxAddrP1),
   ("TX_ADDR", .txAddr), ("RX_PW_P0", .rxPwP0), ("RX_PW_P1", .rxPwP1), ("RX_PW_P2", .rxPwP2),
   ("RX_PW_P3", .rxPwP3), ("RX_PW_P4", .rxPwP4), ("RX_PW_P5", .rxPwP5), ("FIFO_STATUS", .fifoStatus),
   ("DYNPD", .dynpd), ("FEATURE", .feature)]

/-- A word as an operand: a byte, a length or a register label. -/
def readWord (cs : List Char) : Option Operand :=
  match readByte cs with
  | some b => some (.byte b)
  | none =>
    match readNat cs with
    | some n => some (.num n)
    | none => (regLabels.find? fun e => e.1.toList = cs).map fun e => .label e.2

/-- Where the parser of an operand list stands. -/
inductive OperandState where
  /-- Before the first operand. -/
  | first
  /-- After a comma, an operand must follow. -/
  | operand
  /-- After an operand. -/
  | after
  /-- Inside a byte list, before its first byte. -/
  | listFirst
  /-- Inside a byte list, after a comma. -/
  | listByte (d : List Byte)
  /-- Inside a byte list, after a byte. -/
  | listAfter (d : List Byte)
deriving DecidableEq, Repr

/-- The operands of a request, separated by commas. -/
def readOperands (st : OperandState) (acc : List Operand) : List Token → Option (List Operand)
  | [] =>
    match st with
    | .first | .after => some acc
    | .operand | .listFirst | .listByte _ | .listAfter _ => none
  | t :: ts =>
    match st, t with
    | .first, .word cs | .operand, .word cs =>
      match readWord cs with
      | some o => readOperands .after (acc ++ [o]) ts
      | none => none
    | .first, .open | .operand, .open => readOperands .listFirst acc ts
    | .after, .comma => readOperands .operand acc ts
    | .listFirst, .close => readOperands .after (acc ++ [.bytes []]) ts
    | .listFirst, .word cs =>
      match readByte cs with
      | some b => readOperands (.listAfter [b]) acc ts
      | none => none
    | .listByte d, .word cs =>
      match readByte cs with
      | some b => readOperands (.listAfter (d ++ [b])) acc ts
      | none => none
    | .listAfter d, .comma => readOperands (.listByte d) acc ts
    | .listAfter d, .close => readOperands .after (acc ++ [.bytes d]) ts
    | _, _ => none

/-- A register address: a byte, or a label that stands for its `REGADDR` value (30 R62). -/
def operandAddr (p : Params) : Operand → Option Byte
  | .byte b => some b
  | .label r => some (labelAddr p r)
  | .num _ | .bytes _ => none

/-- The request with a mnemonic and operands (30 R62), or the expansion of a pseudo-request (30 R63). -/
def assemble (p : Params) (m : List Char) (ops : List Operand) : Option Instr :=
  let isM (s : String) : Bool := decide (m = s.toList)
  match ops with
  | [] =>
    if isM "CSN_LOW" then some .csnLow
    else if isM "CSN_HIGH" then some .csnHigh
    else if isM "FLUSH_TX" then some .flushTx
    else if isM "FLUSH_RX" then some .flushRx
    else if isM "READ_PL_WID" then some .readPlWid
    else if isM "CE_HIGH" then some .ceHigh
    else if isM "CE_LOW" then some .ceLow
    else if isM "CE_PULSE" then some .cePulse
    else if isM "READ_STATUS" then some (readStatus p)
    else none
  | [.byte b] =>
    if isM "XFER" then some (.xfer b)
    else if isM "CLEAR_STATUS" then some (clearStatus p b)
    else none
  | [.num n] => if isM "READ_PAYLOAD" then some (.readPayload n) else none
  | [.bytes d] => if isM "WRITE_PAYLOAD" then some (.writePayload d) else none
  | [.bytes d, .num n] =>
    if isM "XFER_N" ∧ n ≤ 1 then some (.xferN d (decide (n = 1))) else none
  | [x, .num n] =>
    if isM "READ_REG" then (operandAddr p x).map fun a => .readReg a n else none
  | [x, .bytes d] =>
    if isM "WRITE_REG" then (operandAddr p x).map fun a => .writeReg a d else none
  | [x, .byte v] =>
    if isM "WRITE_REG1" then (operandAddr p x).map fun a => writeReg1 a v else none
  | _ => none

/-- The request of one line's tokens. -/
def parseTokens (p : Params) : List Token → Option Instr
  | .word m :: ts => (readOperands .first [] ts).bind (assemble p m)
  | _ => none

/-- The lines of a text. -/
def splitLines (acc : List Char) : List Char → List (List Char)
  | [] => [acc.reverse]
  | c :: cs => if c = '\n' then acc.reverse :: splitLines [] cs else splitLines (c :: acc) cs

/-- The requests of the lines, top to bottom; a line with no token is skipped (30 R62). -/
def parseLines (p : Params) : List (List Char) → Option (List Instr)
  | [] => some []
  | l :: ls =>
    match lexLine [] l with
    | [] => parseLines p ls
    | t :: ts => (parseTokens p (t :: ts)).bind fun i => (parseLines p ls).map (i :: ·)

/-- A program: a list of requests, one per line (30 R62). -/
def parseProgram (p : Params) (text : List Char) : Option (List Instr) := parseLines p (splitLines [] text)

/-- A hexadecimal digit. -/
def hexDigit (n : Nat) : Char := if n < 10 then Char.ofNat (48 + n) else Char.ofNat (55 + n)

/-- A byte as the word `0xNN`. -/
def byteWord (b : Byte) : Token := .word ['0', 'x', hexDigit (b.toNat / 16), hexDigit (b.toNat % 16)]

/-- A length as a decimal word. -/
def natWord (n : Nat) : Token := .word (Nat.toDigits 10 n)

/-- The bytes of a list after its first. -/
def moreBytes : List Byte → List Token
  | [] => []
  | b :: d => .comma :: byteWord b :: moreBytes d

/-- A byte list. -/
def bytesTokens : List Byte → List Token
  | [] => [.open, .close]
  | b :: d => .open :: byteWord b :: moreBytes d ++ [.close]

/-- A mnemonic as a word. -/
def mnemonicWord (s : String) : Token := .word s.toList

/-- The tokens of a request (30 R62). A wire command is no request and has no text. -/
def requestTokens : Instr → Option (List Token)
  | .wRreg _ _ => none
  | .wWreg _ _ => none
  | .wRRxPlWid => none
  | .wRRxPayload _ => none
  | .wWTxPayload _ => none
  | .wFlushTx => none
  | .wFlushRx => none
  | .csnLow => some [mnemonicWord "CSN_LOW"]
  | .csnHigh => some [mnemonicWord "CSN_HIGH"]
  | .xfer b => some [mnemonicWord "XFER", byteWord b]
  | .xferN d r => some (mnemonicWord "XFER_N" :: bytesTokens d ++ [.comma, natWord (if r then 1 else 0)])
  | .readReg a n => some [mnemonicWord "READ_REG", byteWord a, .comma, natWord n]
  | .writeReg a d => some ([mnemonicWord "WRITE_REG", byteWord a, .comma] ++ bytesTokens d)
  | .flushTx => some [mnemonicWord "FLUSH_TX"]
  | .flushRx => some [mnemonicWord "FLUSH_RX"]
  | .readPlWid => some [mnemonicWord "READ_PL_WID"]
  | .readPayload n => some [mnemonicWord "READ_PAYLOAD", natWord n]
  | .writePayload d => some (mnemonicWord "WRITE_PAYLOAD" :: bytesTokens d)
  | .ceHigh => some [mnemonicWord "CE_HIGH"]
  | .ceLow => some [mnemonicWord "CE_LOW"]
  | .cePulse => some [mnemonicWord "CE_PULSE"]

/-- A token as written; a space follows a comma (log entry 21). -/
def tokenText : Token → List Char
  | .word cs => cs
  | .comma => [',', ' ']
  | .open => [braceOpen]
  | .close => [braceClose]

/-- Tokens written one after the other. -/
def tokensText (ts : List Token) : List Char := (ts.map tokenText).flatten

/-- A line: the mnemonic, a space, the operands (30 R62, log entry 21). -/
def lineText : List Token → List Char
  | [] => []
  | m :: ts => tokenText m ++ ' ' :: tokensText ts

/-- A program as text, one request per line, top to bottom (30 R62); none if it holds a wire command. -/
def programText : List Instr → Option (List Char)
  | [] => some []
  | i :: l => (requestTokens i).bind fun ts => (programText l).map fun rest => lineText ts ++ '\n' :: rest

end Sys2Proof.Machine
end

