-- ==== Sys2Proof/Safety.lean ====
section
/-! DEFINITION. The terms claims use: the bytes that arrive, the events and the state that a transfer and a frame leave,
the protocol monitor over the bus trace, the invariant of the block, and runs from reset. -/

namespace Sys2Proof.Machine

/-- The byte of 8 levels, the first in bit 7 (20 R36). -/
def byteOfLevels (b7 b6 b5 b4 b3 b2 b1 b0 : Level) : Byte := BitVec.ofBoolListBE [b7, b6, b5, b4, b3, b2, b1, b0]

/-- The byte whose 8 samples are the next but `k` bytes to arrive on MISO, first sample in bit 7 (20 R36, R37). -/
def State.inByte (s : State) (k : Nat) : Byte :=
  byteOfLevels (s.nextLevel (8 * k)) (s.nextLevel (8 * k + 1)) (s.nextLevel (8 * k + 2)) (s.nextLevel (8 * k + 3))
    (s.nextLevel (8 * k + 4)) (s.nextLevel (8 * k + 5)) (s.nextLevel (8 * k + 6)) (s.nextLevel (8 * k + 7))

/-- The next `n` bytes to arrive after the first `k`, in order of arrival (20 R37). -/
def State.inBytes (s : State) (k n : Nat) : List Byte := (List.range' k n).map s.inByte

/-- The events of one bit: `m` out, `i` in (40 R64). -/
def bitEvents (m i : Level) : List Event := [.sckUp m, .sample i, .sckDown]

/-- The 24 events of one byte, bit 7 first: `B(o, i)` of spec 95 (40 R68). -/
def byteEvents (o i : Byte) : List Event :=
  bitEvents (o.getLsbD 7) (i.getLsbD 7) ++ bitEvents (o.getLsbD 6) (i.getLsbD 6) ++
  bitEvents (o.getLsbD 5) (i.getLsbD 5) ++ bitEvents (o.getLsbD 4) (i.getLsbD 4) ++
  bitEvents (o.getLsbD 3) (i.getLsbD 3) ++ bitEvents (o.getLsbD 2) (i.getLsbD 2) ++
  bitEvents (o.getLsbD 1) (i.getLsbD 1) ++ bitEvents (o.getLsbD 0) (i.getLsbD 0)

/-- The events of the bytes `os` out and `is` in, byte after byte (40 R69). -/
def bytesEvents (os is : List Byte) : List Event := (List.zipWith byteEvents os is).flatten

/-- The events of one frame: the bytes between `CSN↓` and `CSN↑` (30 R52, 42 R75). -/
def frameEvents (os is : List Byte) : List Event := .csnDown :: bytesEvents os is ++ [.csnUp]

/-- The lines, shift registers and MISO bookkeeping after the bytes `os` have been transferred (40 R68, R69): `MOSI` and
`SHO` from the last byte out, `SHI` the last byte in, the trace grown by their events; all else as it was. -/
def State.afterBytes (s : State) (os : List Byte) : State :=
  match os.getLast? with
  | none => s
  | some o =>
    { s with
      mosi := o.getLsbD 0
      sho := o
      shi := s.inByte (os.length - 1)
      bit := 0
      trace := s.trace ++ bytesEvents os (s.inBytes 0 os.length)
      miso := s.miso.drop (8 * os.length)
      samples := s.samples + 8 * os.length }

/-- The state after a frame with command byte `c` and data bytes `d` that delivers `res` (42 R75, R76). -/
def State.afterFrame (s : State) (c : Byte) (d : List Byte) (res : Result) : State :=
  { s with
    mosi := (d.getLastD c).getLsbD 0
    sho := d.getLastD c
    shi := s.inByte d.length
    bit := 0
    stat := s.inByte 0
    trace := s.trace ++ frameEvents (c :: d) (s.inBytes 0 (d.length + 1))
    results := s.results ++ [res]
    miso := s.miso.drop (8 * (d.length + 1))
    samples := s.samples + 8 * (d.length + 1) }

/-- The state in which a request that moves no byte leaves the chip-select line at `b` (40 R66, R67). -/
def State.afterCsn (s : State) (b : Level) : State :=
  { s with
    csn := b
    trace := s.trace ++ (if s.csn = b then [] else [if b then .csnUp else .csnDown])
    results := s.results ++ [{ status := none, data := none }] }

/-- The state in which a request leaves the chip-enable line at `b` after the events `es` (41 R71 to R73). -/
def State.afterCe (s : State) (b : Level) (es : List Event) : State :=
  { s with
    ce := b
    trace := s.trace ++ es
    results := s.results ++ [{ status := none, data := none }] }

/-- The lines as a reader of the bus trace sees them, and how many bits of the current byte have been clocked. -/
structure Monitor where
  sck : Level
  csn : Level
  ce : Level
  bits : Nat
deriving DecidableEq, Repr

/-- The monitor's levels at reset (10 R33). -/
def Monitor.start : Monitor := { sck := false, csn := true, ce := false, bits := 0 }

/-- One event is legal when it changes its line, MISO is sampled with the clock high (40 R64), and chip-select moves only
with the clock low and after whole bytes (42 R75, 20 R39). -/
def Monitor.next (m : Monitor) : Event → Option Monitor
  | .sckUp _ => if m.sck then none else some { m with sck := true }
  | .sckDown => if m.sck then some { m with sck := false, bits := (m.bits + 1) % 8 } else none
  | .sample _ => if m.sck then some m else none
  | .csnDown => if m.csn && !m.sck && m.bits == 0 then some { m with csn := false } else none
  | .csnUp => if !m.csn && !m.sck && m.bits == 0 then some { m with csn := true } else none
  | .ceUp => if m.ce then none else some { m with ce := true }
  | .ceDown => if m.ce then some { m with ce := false } else none

/-- The monitor over a trace, event by event from the first: `none` when an event is illegal. -/
def Monitor.read (m : Monitor) (es : List Event) : Option Monitor :=
  es.foldl (fun o e => o.bind fun m' => m'.next e) (some m)

/-- The invariant of the block between requests: `PHASE = IDLE` (10 R20), `SCK = 0` (10 R34), and the trace is legal from
reset and leaves the lines at the levels the state holds, after whole bytes. -/
def Inv (s : State) : Prop :=
  s.phase = .idle ∧ s.sck = false ∧
    Monitor.start.read s.trace = some { sck := s.sck, csn := s.csn, ce := s.ce, bits := 0 }

/-- The states of runs: from reset with any parameter record, any program on the port and any MISO levels, by steps
(70 R116, R129). -/
inductive Reachable : State → Prop where
  | start (p : Params) (prog : List Item) (levels : List Level) :
      Reachable { State.resetWith p with port := prog, miso := levels }
  | step {s t : State} : Reachable s → step s = .next t → Reachable t

/-- An event with the sampled level left out: what the block itself does on its output lines. -/
def Event.blind : Event → Event
  | .sample _ => .sample false
  | .sckUp m => .sckUp m
  | .sckDown => .sckDown
  | .csnDown => .csnDown
  | .csnUp => .csnUp
  | .ceUp => .ceUp
  | .ceDown => .ceDown

/-- "Refused when not `IDLE`", the words of the request rules 40 R66, R67, 41 R71 to R73, 42 R78 to R84, under the name of
log entry 11. -/
def RefusedUnlessIdle (i : Instr) (s : State) : Prop := s.phase ≠ .idle → exec i s = .refused .notIdle

/-- "Refused when `n > MAXLEN`" or `len(D) > MAXLEN` (40 R69, 42 R78, R79, R83, R84; 60 R103). -/
def RefusedWhenTooLong (i : Instr) (len : Nat) (s : State) : Prop :=
  s.phase = .idle → s.params.wf = true → s.params.maxLen < len → exec i s = .refused .tooLong

/-- "Refused when `CSN = 0` at the start" (42 R78 to R84; 60 R103), for a length within `MAXLEN` (60 R106). -/
def RefusedInOpenFrame (i : Instr) (len : Nat) (s : State) : Prop :=
  s.phase = .idle → s.params.wf = true → len ≤ s.params.maxLen → s.csn = false → exec i s = .refused .openFrame

/-- A block that a request finds as every run leaves it: `IDLE`, a well-formed parameter record (60 R103, R104), and the
clock low (10 R34). -/
abbrev State.ready (s : State) : Prop := s.phase = .idle ∧ s.params.wf = true ∧ s.sck = false

end Sys2Proof.Machine

namespace Sys2Proof

/-- The data bytes of the frame of a sequenced command (40 R40, 42 R82); 0 for the requests that are no frame. -/
def Instr.dataBytes : Instr → Nat
  | .wRreg _ n => n
  | .wWreg _ d => d.length
  | .wRRxPlWid => 1
  | .wRRxPayload n => n
  | .wWTxPayload d => d.length
  | .wFlushTx => 0
  | .wFlushRx => 0
  | .csnLow => 0
  | .csnHigh => 0
  | .xfer _ => 0
  | .xferN _ _ => 0
  | .readReg _ n => n
  | .writeReg _ d => d.length
  | .flushTx => 0
  | .flushRx => 0
  | .readPlWid => 1
  | .readPayload n => n
  | .writePayload d => d.length
  | .ceHigh => 0
  | .ceLow => 0
  | .cePulse => 0

/-- The bytes an instruction sends on MOSI, in order (40 R68, R69; 42 R75, R78 to R84). -/
def Instr.sent (p : Params) : Instr → List Byte
  | .wRreg ad n => regCommand p.codes.opRreg ad :: List.replicate n p.dummy
  | .wWreg ad d => regCommand p.codes.opWreg ad :: d
  | .wRRxPlWid => [p.codes.cmdRRxPlWid, p.dummy]
  | .wRRxPayload n => p.codes.cmdRRxPayload :: List.replicate n p.dummy
  | .wWTxPayload d => p.codes.cmdWTxPayload :: d
  | .wFlushTx => [p.codes.cmdFlushTx]
  | .wFlushRx => [p.codes.cmdFlushRx]
  | .csnLow => []
  | .csnHigh => []
  | .xfer b => [b]
  | .xferN d _ => d
  | .readReg a n => regCommand p.codes.opRreg (effAddr a) :: List.replicate n p.dummy
  | .writeReg a d => regCommand p.codes.opWreg (effAddr a) :: d
  | .flushTx => [p.codes.cmdFlushTx]
  | .flushRx => [p.codes.cmdFlushRx]
  | .readPlWid => [p.codes.cmdRRxPlWid, p.dummy]
  | .readPayload n => p.codes.cmdRRxPayload :: List.replicate n p.dummy
  | .writePayload d => p.codes.cmdWTxPayload :: d
  | .ceHigh => []
  | .ceLow => []
  | .cePulse => []

/-- Whether the result of an instruction carries data bytes (30 R57). -/
def Instr.returnsData : Instr → Bool
  | .wRreg _ _ => true
  | .wWreg _ _ => false
  | .wRRxPlWid => true
  | .wRRxPayload _ => true
  | .wWTxPayload _ => false
  | .wFlushTx => false
  | .wFlushRx => false
  | .csnLow => false
  | .csnHigh => false
  | .xfer _ => true
  | .xferN _ _ => true
  | .readReg _ _ => true
  | .writeReg _ _ => false
  | .flushTx => false
  | .flushRx => false
  | .readPlWid => true
  | .readPayload _ => true
  | .writePayload _ => false
  | .ceHigh => false
  | .ceLow => false
  | .cePulse => false

/-- Whether an instruction is one of the three chip-enable requests (41 R70). -/
def Instr.chipEnable : Instr → Bool
  | .wRreg _ _ => false
  | .wWreg _ _ => false
  | .wRRxPlWid => false
  | .wRRxPayload _ => false
  | .wWTxPayload _ => false
  | .wFlushTx => false
  | .wFlushRx => false
  | .csnLow => false
  | .csnHigh => false
  | .xfer _ => false
  | .xferN _ _ => false
  | .readReg _ _ => false
  | .writeReg _ _ => false
  | .flushTx => false
  | .flushRx => false
  | .readPlWid => false
  | .readPayload _ => false
  | .writePayload _ => false
  | .ceHigh => true
  | .ceLow => true
  | .cePulse => true

end Sys2Proof

namespace Sys2Proof.Machine

/-- The phases that micro-steps pass, in order (10 R20). -/
def phasesOf (ms : List Micro) : List Phase :=
  ms.filterMap fun m => match m with
    | .phase p => some p
    | .drive _ _ | .loadSho _ | .clearShi | .setBit _ | .driveBit | .sampleShift | .captureStat | .keep | .wait _ => none

/-- The values of `BIT` that micro-steps pass, in order (10 R19). -/
def bitsOf (ms : List Micro) : List (BitVec 3) :=
  ms.filterMap fun m => match m with
    | .setBit k => some k
    | .phase _ | .drive _ _ | .loadSho _ | .clearShi | .driveBit | .sampleShift | .captureStat | .keep | .wait _ => none

/-- The order in which micro-steps pass their phases, drive chip-select, begin the transfer of a byte (with that byte), take
the byte received, and wait: all micro-steps but those inside a byte (40 R69, 42 R75). -/
def outline (ms : List Micro) : List Micro :=
  ms.filter fun m => match m with
    | .phase _ | .loadSho _ | .captureStat | .keep | .wait _ => true
    | .drive l _ => l == .csn || l == .ce
    | .clearShi | .setBit _ | .driveBit | .sampleShift => false

/-- The number of settle points among micro-steps (40 R69, 42 R75). -/
def settlePoints (ms : List Micro) : Nat :=
  ms.countP fun m => match m with
    | .wait _ => true
    | .phase _ | .drive _ _ | .loadSho _ | .clearShi | .setBit _ | .driveBit | .sampleShift | .captureStat | .keep => false

/-- The levels of MOSI at the rising clock edges of a trace, in order. -/
def mosiLevels (es : List Event) : List Level :=
  es.filterMap fun e => match e with
    | .sckUp m => some m
    | .sckDown | .csnDown | .csnUp | .ceUp | .ceDown | .sample _ => none

/-- The sampled levels of a trace, in order. -/
def sampledLevels (es : List Event) : List Level :=
  es.filterMap fun e => match e with
    | .sample b => some b
    | .sckUp _ | .sckDown | .csnDown | .csnUp | .ceUp | .ceDown => none

/-- Whether an event is an edge of the chip-enable line. -/
def Event.isCe : Event → Bool
  | .ceUp | .ceDown => true
  | .sckUp _ | .sckDown | .csnDown | .csnUp | .sample _ => false

/-- The bits of a byte, bit 7 first (20 R36). -/
def bitsMsbFirst (b : Byte) : List Level :=
  [b.getLsbD 7, b.getLsbD 6, b.getLsbD 5, b.getLsbD 4, b.getLsbD 3, b.getLsbD 2, b.getLsbD 1, b.getLsbD 0]

end Sys2Proof.Machine
end

