-- ==== Sys2Proof/Certificates/Slice0/Obligations.lean ====
section
/-! DEFINITION. The statements for the provers. Each docstring names the rule of the spec it formalises. -/

open Sys2Proof Sys2Proof.Machine

/-! ### Encodings -/

/-- 30 R50, R51, R55, R56, R61: under command codes that pass the check of R53, decoding the encoding of any instruction,
with any don't-care byte, gives it back. -/
def Obligations.DecodeOfEncodeIsTheInstruction : Prop :=
  ∀ (w : WireCodes) (dummy : Byte) (i : Instr), w.wf = true → decode w (encode w dummy i) = .ok i

/-- 30 R55, R56: a request record has one meaning: the instruction it decodes to encodes to that very record. -/
def Obligations.EncodeOfDecodedRequestIsTheRequest : Prop :=
  ∀ (w : WireCodes) (dummy : Byte) (q : Request) (i : Instr),
    decode w (.request q) = .ok i → encode w dummy i = .request q

/-- 30 R58, R61: a frame that decodes is, but for its don't-care bytes, the frame its wire command encodes to: the same
command byte and the same number of bytes, and the same bytes where the data phase is a write path. -/
def Obligations.DecodedFrameIsTheCommandsFrame : Prop :=
  ∀ (w : WireCodes) (dummy : Byte) (bytes : List Byte) (i : Instr), decode w (.frame bytes) = .ok i →
    ∃ bytes', encode w dummy i = .frame bytes' ∧ bytes'.length = bytes.length ∧ bytes'.head? = bytes.head? ∧
      (i.returnsData = false → bytes' = bytes)

/-- 30 R55, R60: the request code alone picks the request: each record of code 0x1 to 0xE with the fields of R56 decodes
to its row, and codes 0x0 and 0xF decode to nothing whatever their fields. -/
def Obligations.RequestCodesDecode : Prop :=
  (∀ (w : WireCodes) (b a : Byte) (d : List Byte) (n : Nat) (r : Level),
    decode w (.request ⟨0x1, none, none, none, none, none⟩) = .ok .csnLow ∧
    decode w (.request ⟨0x2, none, none, none, none, none⟩) = .ok .csnHigh ∧
    decode w (.request ⟨0x3, none, none, none, some b, none⟩) = .ok (.xfer b) ∧
    decode w (.request ⟨0x4, none, none, some d, none, some r⟩) = .ok (.xferN d r) ∧
    decode w (.request ⟨0x5, some a, some n, none, none, none⟩) = .ok (.readReg a n) ∧
    decode w (.request ⟨0x6, some a, none, some d, none, none⟩) = .ok (.writeReg a d) ∧
    decode w (.request ⟨0x7, none, none, none, none, none⟩) = .ok .flushTx ∧
    decode w (.request ⟨0x8, none, none, none, none, none⟩) = .ok .flushRx ∧
    decode w (.request ⟨0x9, none, none, none, none, none⟩) = .ok .readPlWid ∧
    decode w (.request ⟨0xA, none, some n, none, none, none⟩) = .ok (.readPayload n) ∧
    decode w (.request ⟨0xB, none, none, some d, none, none⟩) = .ok (.writePayload d) ∧
    decode w (.request ⟨0xC, none, none, none, none, none⟩) = .ok .ceHigh ∧
    decode w (.request ⟨0xD, none, none, none, none, none⟩) = .ok .ceLow ∧
    decode w (.request ⟨0xE, none, none, none, none, none⟩) = .ok .cePulse) ∧
  (∀ (w : WireCodes) (q : Request), q.code = 0x0 ∨ q.code = 0xF → decode w (.request q) = .error .reservedCode)

/-- 30 R58 at the defaults of 00 R7: the wire commands of a few written-out frames (the rows of spec 95 V21, V24, V27,
V29, V31, V33), and a byte the sequencer never sends (30 R59). -/
def Obligations.DefaultCommandBytesDecode : Prop :=
  decode .defaults (.frame [0x07, 0x00]) = .ok (.wRreg 0x07 1) ∧
  decode .defaults (.frame [0x20, 0x0E]) = .ok (.wWreg 0x00 [0x0E]) ∧
  decode .defaults (.frame [0xE1]) = .ok .wFlushTx ∧
  decode .defaults (.frame [0xE2]) = .ok .wFlushRx ∧
  decode .defaults (.frame [0x60, 0x00]) = .ok .wRRxPlWid ∧
  decode .defaults (.frame [0x61, 0x00, 0x00, 0x00]) = .ok (.wRRxPayload 3) ∧
  decode .defaults (.frame [0xA0, 0x01, 0x02, 0x03]) = .ok (.wWTxPayload [0x01, 0x02, 0x03]) ∧
  decode .defaults (.frame [0xFF]) = .error .unknownCommand

/-- 30 R50, with the address of 42 R74: the effective address is the low 5 bits of the request's address, and the command
byte holds in bits 7:5 the opcode, `OP_RREG` for a read and `OP_WREG` for a write, and in bits 4:0 that address. -/
def Obligations.AddressMaskAndCommandByte : Prop :=
  (∀ (a : Byte) (k : Nat), (effAddr a).getLsbD k = (decide (k < 5) && a.getLsbD k)) ∧
  (∀ (op : BitVec 3) (ea : Addr5), opField (regCommand op ea) = op ∧ addrField (regCommand op ea) = ea) ∧
  (∀ (p : Params) (a : Byte), opField (readCommand p (effAddr a)) = p.codes.opRreg ∧
    addrField (readCommand p (effAddr a)) = effAddr a ∧ opField (writeCommand p (effAddr a)) = p.codes.opWreg ∧
    addrField (writeCommand p (effAddr a)) = effAddr a)

/-- 30 R53: the check of the command codes, condition by condition; the defaults meet it; a record that meets it tells the
seven commands apart by the command byte; a record that fails it is refused with every instruction. -/
def Obligations.CommandBytesAreDistinct : Prop :=
  (∀ w : WireCodes, w.wf = true ↔ w.opRreg ≠ w.opWreg ∧
    [w.cmdRRxPlWid, w.cmdRRxPayload, w.cmdWTxPayload, w.cmdFlushTx, w.cmdFlushRx].Nodup ∧
    ∀ f ∈ [w.cmdRRxPlWid, w.cmdRRxPayload, w.cmdWTxPayload, w.cmdFlushTx, w.cmdFlushRx],
      opField f ≠ w.opRreg ∧ opField f ≠ w.opWreg) ∧
  WireCodes.defaults.wf = true ∧
  (∀ (i : Instr) (s : State), s.phase = .idle → s.params.codes.wf = false → exec i s = .refused .badConfig) ∧
  ∀ (w : WireCodes) (ea ea' : Addr5), w.wf = true →
    regCommand w.opRreg ea ≠ regCommand w.opWreg ea' ∧ w.fixed.Nodup ∧
    regCommand w.opRreg ea ∉ w.fixed ∧ regCommand w.opWreg ea ∉ w.fixed

/-! ### The step and reset -/

/-- 20 R45, 60 R104: when the oldest item of the port decodes to `i`, a step is `i` performed with that item taken off the
port, and nothing else around it. -/
def Obligations.StepRunsTheDecodedInstruction : Prop :=
  ∀ (s : State) (item : Item) (rest : List Item) (i : Instr),
    s.port = item :: rest → decode s.params.codes item = .ok i → step s = exec i { s with port := rest }

/-- 70 R115: with no request on the port the block waits, in the same state; after reset it does so. -/
def Obligations.StepWithNoRequestWaits : Prop :=
  (∀ s : State, s.port = [] → step s = .next s) ∧ step State.reset = .next State.reset

/-- 60 R103, R106 and 30 R60: from `IDLE` a request with code 0x0 or 0xF is refused as `ReservedCode`, or as `BadConfig`
where the parameter record fails its check. -/
def Obligations.ReservedCodesAreRefused : Prop :=
  ∀ (s : State) (q : Request) (rest : List Item), s.phase = .idle → s.port = .request q :: rest →
    (q.code = 0x0 ∨ q.code = 0xF) →
    step s = .refused (if s.params.wf = true then .reservedCode else .badConfig)

/-- Log entries 13 and 14, the model's choices: from `IDLE` with a well-formed record, an item that is no request of 30 R56
and no wire command of 30 R58 is refused under a name of its own. -/
def Obligations.OtherItemsAreRefusedByName : Prop :=
  ∀ (s : State) (item : Item) (rest : List Item) (e : DecodeError), s.phase = .idle → s.params.wf = true →
    s.port = item :: rest → decode s.params.codes item = .error e →
    step s = .refused (match e with
      | .reservedCode => .reservedCode
      | .malformedRequest => .malformedRequest
      | .emptyFrame | .unknownCommand | .wrongFrameLength => .noWireCommand)

/-- 10 R33, 70 R115 (the spec's decision D13; log entry 8): what reset leaves, with an empty trace and no result. The
registers to which the spec gives no value are not mentioned. -/
def Obligations.ResetLeaves : Prop :=
  ∀ p : Params, (State.resetWith p).sck = false ∧ (State.resetWith p).csn = true ∧ (State.resetWith p).ce = false ∧
    (State.resetWith p).phase = .idle ∧ (State.resetWith p).trace = [] ∧ (State.resetWith p).results = [] ∧
    State.reset = State.resetWith Params.atReset ∧ Params.atReset.wf = true

/-- 70 R118: after reset every request is accepted whose length is within `MAXLEN`, for every well-formed record. -/
def Obligations.EveryRequestIsAcceptedAfterReset : Prop :=
  ∀ (p : Params) (i : Instr), p.wf = true → i.wf p.maxLen = true → ∃ t, exec i (State.resetWith p) = .next t

/-! ### Acceptance and refusal -/

/-- 60 R102, R103, R104, 42 R75: an instruction completes exactly when the block is `IDLE`, the record is well formed,
its length is within `MAXLEN`, and chip-select is released if it is a sequenced command. -/
def Obligations.CompletesExactlyWhenAccepted : Prop :=
  ∀ (i : Instr) (s : State),
    (∃ t, exec i s = .next t) ↔
      s.phase = .idle ∧ s.params.wf = true ∧ i.wf s.params.maxLen = true ∧ (i.sequenced = true → s.csn = true)

/-- 60 R103, R106: the reason of a refusal, in priority order, for every instruction of an `IDLE` block. -/
def Obligations.RefusalReasonsInOrder : Prop :=
  ∀ (i : Instr) (s : State), s.phase = .idle →
    (s.params.wf = false → exec i s = .refused .badConfig) ∧
    (s.params.wf = true → i.wf s.params.maxLen = false → exec i s = .refused .tooLong) ∧
    (s.params.wf = true → i.wf s.params.maxLen = true → i.sequenced = true → s.csn = false →
      exec i s = .refused .openFrame)

/-- 60 R104 (log entry 11): outside `IDLE` no instruction is performed. -/
def Obligations.NothingIsPerformedOutsideIdle : Prop :=
  ∀ (i : Instr) (s : State), s.phase ≠ .idle → exec i s = .refused .notIdle

/-! ### The shift engine -/

/-- 40 R68: `XFER b` sends `b` and returns the byte of the 8 samples; the whole next state. `CSN`, `CE`, `STAT` and all
else stay. `BIT`, `SHO` and `SHI` after it are log entry 5, the order inside a bit is the spec's decision D3. -/
def Obligations.XferTransfersOneByte : Prop :=
  ∀ (b : Byte) (s : State), s.ready →
    exec (.xfer b) s = .next { s with
      sho := b, shi := s.inByte 0, bit := 0, mosi := b.getLsbD 0
      trace := s.trace ++ byteEvents b (s.inByte 0)
      results := s.results ++ [{ status := none, data := some [s.inByte 0] }]
      miso := s.miso.drop 8, samples := s.samples + 8 }

/-- 20 R36: within every 8-bit word, on both lines, bit 7 goes first and bit 0 last. The levels of MOSI at the rising edges
an instruction appends are the bits of the bytes it sends; the samples it appends are the levels on MISO in order; the status
it returns is the byte of the first 8 samples, the data it returns are the bytes of the last ones, first sample in bit 7. -/
def Obligations.BytesGoMostSignificantBitFirst : Prop :=
  ∀ (i : Instr) (s : State), s.ready → i.wf s.params.maxLen = true → (i.sequenced = true → s.csn = true) →
    ∃ (t : State) (es : List Event) (res : Result), exec i s = .next t ∧ t.trace = s.trace ++ es ∧
      t.results = s.results ++ [res] ∧
      mosiLevels es = ((i.sent s.params).map bitsMsbFirst).flatten ∧
      sampledLevels es = (List.range (8 * (i.sent s.params).length)).map s.nextLevel ∧
      (∀ st, res.status = some st → bitsMsbFirst st <+: sampledLevels es) ∧
      (∀ d, res.data = some d → (d.map bitsMsbFirst).flatten <:+ sampledLevels es)

/-- 40 R68: the byte returned depends only on the samples, never on the byte sent. -/
def Obligations.XferResultIgnoresTheByteSent : Prop :=
  ∀ (b b' : Byte) (s : State), s.ready → ∃ t t' : State,
    exec (.xfer b) s = .next t ∧ exec (.xfer b') s = .next t' ∧ t.results = t'.results ∧ t.shi = t'.shi ∧
    sampledLevels t.trace = sampledLevels t'.trace

/-- 40 R69: `XFER_N D, r` transfers the bytes of `D` in order and returns what arrives; for an empty list it only returns
the empty list. `r` changes nothing but the settle points: their number here, their place in SettlePointsStandBetweenReadBytes
(the spec's decision D10). The whole next state, with `BIT`, `SHO` and `SHI` as in log entry 5, and the refusals. -/
def Obligations.XferNTransfersTheBytes : Prop :=
  ∀ (d : List Byte) (r : Level) (s : State),
    (s.ready → d.length ≤ s.params.maxLen →
      exec (.xferN d r) s = .next { s.afterBytes d with
        results := s.results ++ [{ status := none, data := some (s.inBytes 0 d.length) }] }) ∧
    settlePoints (xferNMicros d r) = (if r then d.length - 1 else 0) ∧
    RefusedWhenTooLong (.xferN d r) d.length s ∧ RefusedUnlessIdle (.xferN d r) s

/-- 40 R69, 20 R37: `XFER_N` on `b` followed by `D` drives the lines as `XFER b` and then `XFER_N D` do. -/
def Obligations.XferNIsXferByteByByte : Prop :=
  ∀ (b : Byte) (d : List Byte) (r : Level) (s : State), s.ready → d.length + 1 ≤ s.params.maxLen →
    ∃ t t1 t2 : State, exec (.xferN (b :: d) r) s = .next t ∧ exec (.xfer b) s = .next t1 ∧
      exec (.xferN d r) t1 = .next t2 ∧ { t with results := [] } = { t2 with results := [] }

/-- 40 R66: `CSN_LOW`: `CSN↓` if chip-select was released, no event if it was asserted; all else stays; it passes `SELECT`
and ends in `IDLE`; refused when not `IDLE`. -/
def Obligations.CsnLowAssertsChipSelect : Prop :=
  ∀ s : State,
    (s.phase = .idle → s.params.wf = true →
      exec .csnLow s = .next { s with
        csn := false
        trace := s.trace ++ (if s.csn = true then [.csnDown] else [])
        results := s.results ++ [{ status := none, data := none }] }) ∧
    phasesOf csnLowMicros = [.select, .idle] ∧ RefusedUnlessIdle .csnLow s

/-- 40 R67: `CSN_HIGH`: `CSN↑` if chip-select was asserted, no event if it was released; all else stays; it passes
`RELEASE` and ends in `IDLE`; refused when not `IDLE`. -/
def Obligations.CsnHighReleasesChipSelect : Prop :=
  ∀ s : State,
    (s.phase = .idle → s.params.wf = true →
      exec .csnHigh s = .next { s with
        csn := true
        trace := s.trace ++ (if s.csn = false then [.csnUp] else [])
        results := s.results ++ [{ status := none, data := none }] }) ∧
    phasesOf csnHighMicros = [.release, .idle] ∧ RefusedUnlessIdle .csnHigh s

/-! ### Chip enable -/

/-- 41 R71 and R72: `CE_HIGH` and `CE_LOW`: an edge if the level changes, no event if not; all else stays; each passes
`ENABLE` and ends in `IDLE`; refused when not `IDLE`. -/
def Obligations.CeHighAndCeLowDriveChipEnable : Prop :=
  ∀ s : State,
    (s.phase = .idle → s.params.wf = true →
      exec .ceHigh s = .next { s with
        ce := true
        trace := s.trace ++ (if s.ce = false then [.ceUp] else [])
        results := s.results ++ [{ status := none, data := none }] } ∧
      exec .ceLow s = .next { s with
        ce := false
        trace := s.trace ++ (if s.ce = true then [.ceDown] else [])
        results := s.results ++ [{ status := none, data := none }] }) ∧
    (∀ b : Level, phasesOf (ceMicros b) = [.enable, .idle]) ∧
    RefusedUnlessIdle .ceHigh s ∧ RefusedUnlessIdle .ceLow s

/-- 41 R73: `CE_PULSE`: drop if high, raise, and drop again in the `MINIMIZE_CURRENT` variant; all else stays; always
exactly one `CE↑`; it passes `ENABLE` and ends in `IDLE`; refused when not `IDLE`. -/
def Obligations.CePulseRaisesChipEnableOnce : Prop :=
  ∀ s : State,
    (s.phase = .idle → s.params.wf = true →
      exec .cePulse s = .next { s with
        ce := !s.params.minimizeCurrent
        trace := s.trace ++ ((if s.ce then [.ceDown] else []) ++ [.ceUp] ++
          (if s.params.minimizeCurrent then [.ceDown] else []))
        results := s.results ++ [{ status := none, data := none }] }) ∧
    (∀ ce minimize : Bool, phasesOf (cePulseMicros ce minimize) = [.enable, .idle]) ∧ RefusedUnlessIdle .cePulse s

/-- 41 R70: only the three chip-enable requests write `CE` or append its edges, and they change no other line, take no
sample and transfer no byte. -/
def Obligations.ChipEnableIsSeparateFromTheBus : Prop :=
  ∀ (i : Instr) (s t : State), exec i s = .next t →
    (i.chipEnable = false → t.ce = s.ce ∧ t.trace.filter Event.isCe = s.trace.filter Event.isCe) ∧
    (i.chipEnable = true → t.csn = s.csn ∧ t.sck = s.sck ∧ t.mosi = s.mosi ∧ t.sho = s.sho ∧ t.shi = s.shi ∧
      t.stat = s.stat ∧ t.samples = s.samples ∧
      t.trace.filter (fun e => !e.isCe) = s.trace.filter (fun e => !e.isCe))

/-! ### The command sequencer -/

/-- 42 R78: `READ_REG a, n`: one frame of the command byte `(OP_RREG << 5) | (a & 0x1F)` and `n` dummy bytes on the read
path, returning the status and the `n` bytes received; the whole next state, with `BIT`, `SHO` and `SHI` as in log entry 5 and
the order inside a bit by the spec's decision D3, and the refusals. -/
def Obligations.ReadRegReturnsStatusAndData : Prop :=
  ∀ (a : Byte) (n : Nat) (s : State),
    (s.ready → s.csn = true → n ≤ s.params.maxLen →
      exec (.readReg a n) s = .next (s.afterFrame
        ((s.params.codes.opRreg.setWidth 8 <<< 5) ||| (a &&& 0x1F)) (List.replicate n s.params.dummy)
        { status := some (s.inByte 0), data := some (s.inBytes 1 n) })) ∧
    RefusedWhenTooLong (.readReg a n) n s ∧ RefusedInOpenFrame (.readReg a n) n s ∧ RefusedUnlessIdle (.readReg a n) s

/-- 42 R79: `WRITE_REG a, D`: one frame of the command byte `(OP_WREG << 5) | (a & 0x1F)` and the bytes of `D`, returning
the status alone; the whole next state, with `BIT`, `SHO` and `SHI` as in log entry 5 and the order inside a bit by the spec's
decision D3, and the refusals. The write path has no settle point. -/
def Obligations.WriteRegSendsTheBytes : Prop :=
  ∀ (a : Byte) (d : List Byte) (s : State),
    (s.ready → s.csn = true → d.length ≤ s.params.maxLen →
      exec (.writeReg a d) s = .next (s.afterFrame
        ((s.params.codes.opWreg.setWidth 8 <<< 5) ||| (a &&& 0x1F)) d
        { status := some (s.inByte 0), data := none })) ∧
    settlePoints (frameMicros (writeCommand s.params (effAddr a)) d false) = 0 ∧
    RefusedWhenTooLong (.writeReg a d) d.length s ∧ RefusedInOpenFrame (.writeReg a d) d.length s ∧
    RefusedUnlessIdle (.writeReg a d) s

/-- 42 R80 and R81: `FLUSH_TX` and `FLUSH_RX`: a frame of the command byte alone, 26 events, returning the status (the
spec's decision D9); the whole next state, with `BIT`, `SHO` and `SHI` as in log entry 5 and the order inside a bit by the
spec's decision D3, and the refusals. -/
def Obligations.FlushesSendTheCommandByteAlone : Prop :=
  ∀ s : State,
    (s.ready → s.csn = true →
      exec .flushTx s = .next (s.afterFrame s.params.codes.cmdFlushTx []
        { status := some (s.inByte 0), data := none }) ∧
      exec .flushRx s = .next (s.afterFrame s.params.codes.cmdFlushRx []
        { status := some (s.inByte 0), data := none })) ∧
    RefusedInOpenFrame .flushTx 0 s ∧ RefusedUnlessIdle .flushTx s ∧
    RefusedInOpenFrame .flushRx 0 s ∧ RefusedUnlessIdle .flushRx s

/-- 42 R82: `READ_PL_WID`: the command byte and one dummy byte (the spec's decision D8), returning the status and the one
byte received; the whole next state, with `BIT`, `SHO` and `SHI` as in log entry 5 and the order inside a bit by the spec's
decision D3, and the refusals. -/
def Obligations.ReadPlWidReturnsOneByte : Prop :=
  ∀ s : State,
    (s.ready → s.csn = true →
      exec .readPlWid s = .next (s.afterFrame s.params.codes.cmdRRxPlWid [s.params.dummy]
        { status := some (s.inByte 0), data := some [s.inByte 1] })) ∧
    RefusedInOpenFrame .readPlWid 0 s ∧ RefusedUnlessIdle .readPlWid s

/-- 42 R83: `READ_PAYLOAD n`: the command byte and `n` dummy bytes, returning the status and the `n` bytes received; `n - 1`
settle points, whose place is in SettlePointsStandBetweenReadBytes (the spec's decision D10); the whole next state, with `BIT`,
`SHO` and `SHI` as in log entry 5 and the order inside a bit by the spec's decision D3, and the refusals. -/
def Obligations.ReadPayloadReturnsStatusAndData : Prop :=
  ∀ (n : Nat) (s : State),
    (s.ready → s.csn = true → n ≤ s.params.maxLen →
      exec (.readPayload n) s = .next (s.afterFrame s.params.codes.cmdRRxPayload (List.replicate n s.params.dummy)
        { status := some (s.inByte 0), data := some (s.inBytes 1 n) })) ∧
    settlePoints (frameMicros s.params.codes.cmdRRxPayload (dummies s.params n) true) = n - 1 ∧
    RefusedWhenTooLong (.readPayload n) n s ∧ RefusedInOpenFrame (.readPayload n) n s ∧
    RefusedUnlessIdle (.readPayload n) s

/-- 42 R84: `WRITE_PAYLOAD D`: the command byte and the bytes of `D`, returning the status alone; no settle point; the whole
next state, with `BIT`, `SHO` and `SHI` as in log entry 5 and the order inside a bit by the spec's decision D3, and the
refusals. -/
def Obligations.WritePayloadSendsTheBytes : Prop :=
  ∀ (d : List Byte) (s : State),
    (s.ready → s.csn = true → d.length ≤ s.params.maxLen →
      exec (.writePayload d) s = .next (s.afterFrame s.params.codes.cmdWTxPayload d
        { status := some (s.inByte 0), data := none })) ∧
    settlePoints (frameMicros s.params.codes.cmdWTxPayload d false) = 0 ∧
    RefusedWhenTooLong (.writePayload d) d.length s ∧ RefusedInOpenFrame (.writePayload d) d.length s ∧
    RefusedUnlessIdle (.writePayload d) s

/-- 30 R52, R58, 42 R75 (log entry 2): each wire command performs the one frame of its command byte and data phase; `BIT`,
`SHO` and `SHI` as in log entry 5, the order inside a bit by the spec's decision D3. -/
def Obligations.WireCommandsPerformTheirFrame : Prop :=
  ∀ (ad : Addr5) (n : Nat) (d : List Byte) (s : State), s.ready → s.csn = true → n ≤ s.params.maxLen →
    d.length ≤ s.params.maxLen →
    exec (.wRreg ad n) s = .next (s.afterFrame (regCommand s.params.codes.opRreg ad)
      (List.replicate n s.params.dummy) { status := some (s.inByte 0), data := some (s.inBytes 1 n) }) ∧
    exec (.wWreg ad d) s = .next (s.afterFrame (regCommand s.params.codes.opWreg ad) d
      { status := some (s.inByte 0), data := none }) ∧
    exec .wRRxPlWid s = .next (s.afterFrame s.params.codes.cmdRRxPlWid [s.params.dummy]
      { status := some (s.inByte 0), data := some [s.inByte 1] }) ∧
    exec (.wRRxPayload n) s = .next (s.afterFrame s.params.codes.cmdRRxPayload
      (List.replicate n s.params.dummy) { status := some (s.inByte 0), data := some (s.inBytes 1 n) }) ∧
    exec (.wWTxPayload d) s = .next (s.afterFrame s.params.codes.cmdWTxPayload d
      { status := some (s.inByte 0), data := none }) ∧
    exec .wFlushTx s = .next (s.afterFrame s.params.codes.cmdFlushTx []
      { status := some (s.inByte 0), data := none }) ∧
    exec .wFlushRx s = .next (s.afterFrame s.params.codes.cmdFlushRx []
      { status := some (s.inByte 0), data := none })

/-- 30 R58, "sent by" (log entry 2): in every state a request and the wire command it sends have the same outcome. -/
def Obligations.RequestsAreTheWireCommandsTheySend : Prop :=
  ∀ (a : Byte) (n : Nat) (d : List Byte) (s : State),
    exec (.readReg a n) s = exec (.wRreg (effAddr a) n) s ∧
    exec (.writeReg a d) s = exec (.wWreg (effAddr a) d) s ∧
    exec .readPlWid s = exec .wRRxPlWid s ∧
    exec (.readPayload n) s = exec (.wRRxPayload n) s ∧
    exec (.writePayload d) s = exec (.wWTxPayload d) s ∧
    exec .flushTx s = exec .wFlushTx s ∧
    exec .flushRx s = exec .wFlushRx s

/-- 42 R75: a sequenced command that is accepted appends `CSN↓`, 24 events for the command byte and for each data byte, and
`CSN↑`: `26 + 24 * n` events, the first `CSN↓` and the last `CSN↑`. -/
def Obligations.FrameHasTwentySixEventsAndMore : Prop :=
  ∀ (i : Instr) (s : State), s.ready → s.csn = true → i.sequenced = true → i.wf s.params.maxLen = true →
    ∃ (t : State) (es : List Event), exec i s = .next t ∧ t.trace = s.trace ++ es ∧
      es.length = 26 + 24 * i.dataBytes ∧ es.head? = some .csnDown ∧ es.getLast? = some .csnUp ∧
      es.count .csnDown = 1 ∧ es.count .csnUp = 1

/-- 42 R76, R77: the status a sequenced command captures and returns is the byte of its first 8 samples, those of the
command byte, whatever arrives afterwards. -/
def Obligations.StatusIsTheCommandBytesAnswer : Prop :=
  ∀ (i : Instr) (s : State), s.ready → s.csn = true → i.sequenced = true → i.wf s.params.maxLen = true →
    ∃ (t : State) (es rest : List Event) (dat : Option (List Byte)), exec i s = .next t ∧
      t.trace = s.trace ++ .csnDown :: es ++ rest ∧ es.length = 24 ∧ sampledLevels es = bitsMsbFirst t.stat ∧
      t.results = s.results ++ [{ status := some t.stat, data := dat }]

/-- 10 R21: only the sequenced commands write `STAT`. -/
def Obligations.RawRequestsKeepStat : Prop :=
  ∀ (i : Instr) (s t : State), i.sequenced = false → exec i s = .next t → t.stat = s.stat

/-- 10 R34: after every accepted sequenced command `CSN = 1`, after `CSN_LOW` it is 0, and no other request but `CSN_HIGH`
changes it. -/
def Obligations.ChipSelectBetweenRequests : Prop :=
  ∀ (i : Instr) (s t : State), exec i s = .next t →
    (i.sequenced = true → t.csn = true) ∧ (i = .csnLow → t.csn = false) ∧ (i = .csnHigh → t.csn = true) ∧
    (i.sequenced = false → i ≠ .csnLow → i ≠ .csnHigh → t.csn = s.csn)

/-- 30 R57: which requests return a status and which return data. -/
def Obligations.ResultShapes : Prop :=
  ∀ (i : Instr) (s t : State), exec i s = .next t →
    ∃ res : Result, t.results = s.results ++ [res] ∧ res.status.isSome = i.sequenced ∧
      res.data.isSome = i.returnsData

/-- 95 V43 (from 40 R66, R67, R68, R69 and 42 R78): framing by hand with the raw requests leaves the same lines, shift
registers and bus trace as the sequenced command; it does not write `STAT` and its results are the raw ones. -/
def Obligations.RawFramingEqualsSequencedFraming : Prop :=
  ∀ (a : Byte) (n : Nat) (s : State), s.ready → s.csn = true → n ≤ s.params.maxLen →
    ∃ t t1 t2 t3 t4 : State, exec (.readReg a n) s = .next t ∧
      exec .csnLow s = .next t1 ∧ exec (.xfer (readCommand s.params (effAddr a))) t1 = .next t2 ∧
      exec (.xferN (dummies s.params n) true) t2 = .next t3 ∧ exec .csnHigh t3 = .next t4 ∧
      t4.sck = t.sck ∧ t4.mosi = t.mosi ∧ t4.csn = t.csn ∧ t4.ce = t.ce ∧ t4.sho = t.sho ∧ t4.shi = t.shi ∧
      t4.bit = t.bit ∧ t4.phase = t.phase ∧ t4.trace = t.trace ∧ t4.params = t.params ∧ t4.port = t.port ∧
      t4.miso = t.miso ∧ t4.samples = t.samples ∧ t4.stat = s.stat ∧
      t4.results = s.results ++ [{ status := none, data := none }, { status := none, data := some [s.inByte 0] },
        { status := none, data := some (s.inBytes 1 n) }, { status := none, data := none }]

/-- 42 R75, 40 R69 (the spec's decision D10): the order of phases, chip-select edges, bytes and waits in a frame and in
`XFER_N`. On the read path one settle point stands before each data byte but the first, none before the first or after the
last; on the write path there is none. Byte `k` of `n` goes in phase `DATA(k, n)` (for `XFER_N`, log entry 12). -/
def Obligations.SettlePointsStandBetweenReadBytes : Prop :=
  ∀ (c : Byte) (d : List Byte) (r : Level),
    let data : List Micro := (d.mapIdx fun k b =>
      [.phase (.data k d.length)] ++ (if r = true ∧ 0 < k then [.wait .settle] else []) ++ [.loadSho b, .keep]).flatten
    outline (frameMicros c d r) =
      [.phase .select, .drive .csn false, .phase .command, .loadSho c, .captureStat] ++ data ++
        [.phase .release, .drive .csn true, .phase .idle] ∧
    outline (xferNMicros d r) = data ++ (if d = [] then [] else [.phase .idle])

/-- 10 R20, 40 R68, 42 R75: the phases a frame passes, in order: `SELECT`, `COMMAND`, `DATA(k, n)` for `k` from 0,
`RELEASE`, and `IDLE` at its end; those of `XFER`; and, by log entry 12, those of `XFER_N`. -/
def Obligations.FramePassesThePhasesInOrder : Prop :=
  ∀ (c : Byte) (d : List Byte) (r : Level),
    phasesOf (frameMicros c d r) =
      [.select, .command] ++ (List.range d.length).map (fun k => .data k d.length) ++ [.release, .idle] ∧
    phasesOf (xferMicros c) = [.data 0 1, .idle] ∧
    phasesOf (xferNMicros d r) =
      (List.range d.length).map (fun k => .data k d.length) ++ (if d = [] then [] else [.idle])

/-- 10 R19, R23, 40 R68: `BIT` counts 7 down to 0 inside each byte: every byte of a frame, its command byte among them, the
byte of `XFER` and every byte of `XFER_N`. -/
def Obligations.BitCountsDownInEveryByte : Prop :=
  ∀ (c : Byte) (d : List Byte) (r : Level),
    let count : List (BitVec 3) := [7, 6, 5, 4, 3, 2, 1, 0]
    bitsOf (frameMicros c d r) = ((c :: d).map fun _ => count).flatten ∧ bitsOf (xferMicros c) = count ∧
      bitsOf (xferNMicros d r) = (d.map fun _ => count).flatten

/-! ### Whole-machine rules -/

/-- 10 R20, R34, 40 R64, 42 R75, 20 R39: every step keeps the invariant of the block: `IDLE`, the clock low, and a legal
bus trace that leaves the lines where the state holds them. -/
def Obligations.StepKeepsTheInvariant : Prop :=
  ∀ s t : State, Inv s → step s = .next t → Inv t

/-- The invariant holds at reset, with every parameter record, program and MISO level list. -/
def Obligations.ResetMeetsTheInvariant : Prop :=
  Inv State.reset ∧ ∀ (p : Params) (prog : List Item) (levels : List Level),
    Inv { State.resetWith p with port := prog, miso := levels }

/-- 10 R26, 20 R45: no step writes the parameter record; a step takes exactly one item off a port that holds one. -/
def Obligations.StepKeepsParametersAndTakesOneItem : Prop :=
  ∀ s t : State, step s = .next t → t.params = s.params ∧ t.port = s.port.tail

/-- 20 R45, 70 R129: an instruction only appends to the trace and appends exactly one result. -/
def Obligations.TraceAndResultsOnlyGrow : Prop :=
  ∀ (i : Instr) (s t : State), exec i s = .next t →
    s.trace <+: t.trace ∧ ∃ res, t.results = s.results ++ [res]

/-- Every sample is recorded: an instruction takes as many MISO levels as it appends samples to the trace (00 R11). -/
def Obligations.EverySampleIsInTheTrace : Prop :=
  ∀ (i : Instr) (s t : State), exec i s = .next t →
    t.samples + (sampledLevels s.trace).length = s.samples + (sampledLevels t.trace).length ∧
    t.miso = s.miso.drop (t.samples - s.samples)

/-- 10 R16, R24: the block does the same on its output lines whatever bits arrive: two states that differ only in the
levels to come end alike but for `SHI`, `STAT`, the sampled levels and the results. -/
def Obligations.OutputsDoNotDependOnMiso : Prop :=
  ∀ (i : Instr) (s t : State) (levels : List Level) (k : Nat), exec i s = .next t →
    ∃ t' : State, exec i { s with miso := levels, samples := k } = .next t' ∧
      t'.trace.map Event.blind = t.trace.map Event.blind ∧
      t'.sck = t.sck ∧ t'.mosi = t.mosi ∧ t'.csn = t.csn ∧ t'.ce = t.ce ∧ t'.sho = t.sho ∧ t'.bit = t.bit ∧
      t'.phase = t.phase ∧ t'.params = t.params ∧ t'.port = t.port

/-- 70 R129, 20 R41: in every run from reset each state meets the invariant, so each `CSN↓` of the bus trace is a delimiter
of its own and whole bytes stand between the edges of chip-select. -/
def Obligations.EveryRunKeepsALegalBusTrace : Prop :=
  ∀ s : State, Reachable s → Inv s

/-! ### The boundary: client sequences and text -/

/-- 43 R92: a bit of `TX_DS` gives success, else a bit of `MAX_RT` gives failed, else a retry is in progress; with the values
of 00 R7, `TX_DS = 0x20` and `MAX_RT = 0x10`, these are bits 5 and 4, and no other bit matters. -/
def Obligations.ClassifyReadsTwoStatusBits : Prop :=
  ∀ (p : Params) (s : Byte),
    classify p s = (if s &&& p.txDs ≠ 0 then .success else if s &&& p.maxRt ≠ 0 then .failed else .failedRetryInProgress) ∧
    (p.txDs = 0x20 → p.maxRt = 0x10 → classify p s =
      if s.getLsbD 5 then .success else if s.getLsbD 4 then .failed else .failedRetryInProgress)

/-- 43 R93: `TRANSMIT D` issues its four requests in order, ends in `IDLE` with chip-select released, and returns the
classification of the status register's data byte; the clear byte is `TX_DS | MAX_RT` whatever the result, 0x30 with the values
of 00 R7. -/
def Obligations.TransmitWritesPulsesReadsAndClears : Prop :=
  ∀ (d : List Byte) (s : State), s.ready → s.csn = true → d.length ≤ s.params.maxLen →
    (transmit s.params d).requests s =
      [.writePayload d, .cePulse, readStatus s.params, clearStatus s.params (s.params.txDs ||| s.params.maxRt)] ∧
    (s.params.txDs = 0x20 → s.params.maxRt = 0x10 → s.params.txDs ||| s.params.maxRt = 0x30) ∧
    ∃ t : State, (transmit s.params d).run s = .next (classify s.params (s.inByte (d.length + 2)), t) ∧
      t.ready ∧ t.csn = true

/-- 43 R94: `RETRANSMIT` pulses, reads, classifies and clears, and writes no payload. -/
def Obligations.RetransmitPulsesReadsAndClears : Prop :=
  ∀ s : State, s.ready → s.csn = true →
    (retransmit s.params).requests s =
      [.cePulse, readStatus s.params, clearStatus s.params (s.params.txDs ||| s.params.maxRt)] ∧
    ∃ t : State, (retransmit s.params).run s = .next (classify s.params (s.inByte 1), t) ∧ t.ready ∧ t.csn = true

/-- 43 R95: `CHECK_ACK` reads the status register once, clears nothing, and classifies its data byte (the spec's decision D19);
43 R97, the spec's decision D24: `DATA_READY` does the same and tells whether `RX_DR` is set. -/
def Obligations.CheckAckAndDataReadyOnlyRead : Prop :=
  ∀ s : State, s.ready → s.csn = true →
    (checkAck s.params).requests s = [readStatus s.params] ∧
    (dataReady s.params).requests s = [readStatus s.params] ∧
    ∃ t : State, (checkAck s.params).run s = .next (classify s.params (s.inByte 1), t) ∧
      (dataReady s.params).run s = .next (decide (s.inByte 1 &&& s.params.rxDr ≠ 0), t) ∧ t.ready ∧ t.csn = true

/-- 43 R96: `GET_PAYLOAD maxSize` reads the width `w`, reads `min(w, maxSize)` bytes into the caller's buffer, reads the
status and clears only `RX_DR`, and only when it is set; it returns the status byte. -/
def Obligations.GetPayloadReadsAtMostMaxSize : Prop :=
  ∀ (maxSize : Nat) (buffer : List Byte) (s : State), s.ready → s.csn = true → maxSize ≤ s.params.maxLen →
    maxSize ≤ buffer.length →
    let m := min (s.inByte 1).toNat maxSize
    let st := s.inByte (m + 4)
    (getPayload s.params maxSize buffer).requests s =
      [.readPlWid, .readPayload m, readStatus s.params] ++
        (if st &&& s.params.rxDr ≠ 0 then [clearStatus s.params s.params.rxDr] else []) ∧
    ∃ t : State, (getPayload s.params maxSize buffer).run s =
      .next ((st, s.inBytes 3 m ++ buffer.drop m), t) ∧ t.ready ∧ t.csn = true

/-- 43 R98 (the spec's decision D36): the bits of the CONFIG byte that the session computes. -/
def Obligations.ConfigByteHoldsCrcPowerAndMode : Prop :=
  ∀ (c : Client) (p : Power) (k : Nat), (cfg c p).getLsbD k =
    ((k == 3 && decide (c.crc ≠ .off)) || (k == 2 && decide (c.crc = .twoBytes)) || (k == 1 && decide (p = .on)) ||
      (k == 0 && decide (c.mode = .rx)))

/-- 43 R99 and R100: in the target power state `POWER_UP` and `POWER_DOWN` issue nothing and change nothing; otherwise
they write CONFIG, with the receiver's chip-enable after it on the way up and before it on the way down. -/
def Obligations.PowerTransitionsAreNoOpsInTheTargetState : Prop :=
  ∀ (c : Client) (s : State),
    (c.power = .on → (powerUp s.params c).requests s = [] ∧ (powerUp s.params c).run s = .next (c, s)) ∧
    (c.power = .off → (powerDown s.params c).requests s = [] ∧ (powerDown s.params c).run s = .next (c, s)) ∧
    (s.ready → s.csn = true → c.power = .off →
      (powerUp s.params c).requests s =
        [.writeReg (labelAddr s.params .config) [cfg c .on]] ++ (if c.mode = .rx then [.ceHigh] else []) ∧
      ∃ t, (powerUp s.params c).run s = .next ({ c with power := .on }, t)) ∧
    (s.ready → s.csn = true → c.power = .on →
      (powerDown s.params c).requests s =
        (if c.mode = .rx then [.ceLow] else []) ++ [.writeReg (labelAddr s.params .config) [cfg c .off]] ∧
      ∃ t, (powerDown s.params c).run s = .next ({ c with power := .off }, t))

/-- 43 R101 (the order inside a step is the spec's decision D25): a start sequence issues its twenty frames in the order and
with the values written here, then, unless the power is on, the CONFIG write and for a receiver `CE_HIGH` (R99). Only the
receiver's resets the address of pipe 1. The context after has the new mode and the power on, and no other change. -/
def Obligations.StartPushesEveryRegister : Prop :=
  ∀ (m : Mode) (c : Client) (s : State), s.ready → s.csn = true →
    let p := s.params
    let p1 : Vector Byte 5 := if m = .rx then #v[0x01, 0x02, 0x03, 0x04, 0x01] else c.p1
    (startAs p m c).requests s =
      [.writeReg (labelAddr p .rxPwP2) [0x00], .writeReg (labelAddr p .rxPwP3) [0x00],
       .writeReg (labelAddr p .rxPwP4) [0x00], .writeReg (labelAddr p .rxPwP5) [0x00],
       .writeReg (labelAddr p .enAa) [c.vAa], .writeReg (labelAddr p .feature) [c.vFeat],
       .writeReg (labelAddr p .enRxAddr) [0x03], .writeReg (labelAddr p .setupRetr) [0x1F],
       .writeReg (labelAddr p .setupAw) [0x03], .writeReg (labelAddr p .dynpd) [c.vDynpd],
       .writeReg (labelAddr p .feature) [c.vFeat], .writeReg (labelAddr p .rxPwP1) [c.vSize],
       .writeReg (labelAddr p .rfCh) [BitVec.ofNat 8 c.channel.val], .writeReg (labelAddr p .rfSetup) [c.vRf],
       .writeReg (labelAddr p .txAddr) c.tx.toList, .writeReg (labelAddr p .rxAddrP0) c.tx.toList,
       .writeReg (labelAddr p .rxAddrP1) p1.toList, .flushTx, .flushRx,
       .writeReg (labelAddr p .status) [p.rxDr ||| p.txDs ||| p.maxRt]] ++
      (if c.power = .on then []
       else [.writeReg (labelAddr p .config) [cfg { c with mode := m } .on]] ++ (if m = .rx then [.ceHigh] else [])) ∧
    ∃ t : State, (startAs p m c).run s = .next ({ c with mode := m, power := .on, p1 := p1 }, t) ∧ t.ready ∧ t.csn = true

/-- 30 R62, in tokens: reading back the tokens that the model's printer (log entry 21) gives any request gives the request; a
wire command has no written form. -/
def Obligations.WrittenRequestsReadBack : Prop :=
  ∀ (p : Params) (i : Instr), (requestTokens i).isSome = i.isRequest ∧
    ∀ ts, requestTokens i = some ts → parseTokens p ts = some i

/-- 30 R62, R63, in text, as the model's printer writes it (log entry 21): every list of requests has a text, one request a
line, that reads back as the list, top to bottom; `; text` up to the end of a line is a comment; a register's label stands for
its `REGADDR` value; the three pseudo-requests read as their expansions. -/
def Obligations.ProgramTextReadsBack : Prop :=
  ∀ p : Params,
    (∀ l : List Instr, (∀ i ∈ l, i.isRequest = true) →
      ∃ text, programText l = some text ∧ parseProgram p text = some l) ∧
    (∀ line comment rest : List Char, '\n' ∉ line → '\n' ∉ comment →
      parseProgram p (line ++ ';' :: comment ++ '\n' :: rest) = parseProgram p (line ++ '\n' :: rest)) ∧
    (∀ e ∈ regLabels, ∀ (n : Nat) (d : List Byte),
      parseProgram p (lineText [mnemonicWord "READ_REG", .word e.1.toList, .comma, natWord n]) =
        some [.readReg ((p.regs.addr e.2).setWidth 8) n] ∧
      parseProgram p (lineText ([mnemonicWord "WRITE_REG", .word e.1.toList, .comma] ++ bytesTokens d)) =
        some [.writeReg ((p.regs.addr e.2).setWidth 8) d]) ∧
    (∀ a v : Byte,
      parseProgram p "READ_STATUS".toList = some [.readReg ((p.regs.addr .status).setWidth 8) 1] ∧
      parseProgram p (lineText [mnemonicWord "CLEAR_STATUS", byteWord v]) =
        some [.writeReg ((p.regs.addr .status).setWidth 8) [v]] ∧
      parseProgram p (lineText [mnemonicWord "WRITE_REG1", byteWord a, .comma, byteWord v]) = some [.writeReg a [v]])
end

