-- ==== Sys2Proof/Laws/State.lean ====
section
/-! SUPPORT. What each update of the state does to each field: one small lemma per field, so that no later proof unfolds a
record update. -/

namespace Sys2Proof.Machine

@[simp] theorem driveSck_sck (b : Level) (s : State) : (driveSck b s).sck = b := by unfold driveSck; split <;> simp_all
@[simp] theorem driveSck_mosi (b : Level) (s : State) : (driveSck b s).mosi = s.mosi := by unfold driveSck; split <;> simp_all
@[simp] theorem driveSck_csn (b : Level) (s : State) : (driveSck b s).csn = s.csn := by unfold driveSck; split <;> simp_all
@[simp] theorem driveSck_ce (b : Level) (s : State) : (driveSck b s).ce = s.ce := by unfold driveSck; split <;> simp_all
@[simp] theorem driveSck_sho (b : Level) (s : State) : (driveSck b s).sho = s.sho := by unfold driveSck; split <;> simp_all
@[simp] theorem driveSck_shi (b : Level) (s : State) : (driveSck b s).shi = s.shi := by unfold driveSck; split <;> simp_all
@[simp] theorem driveSck_bit (b : Level) (s : State) : (driveSck b s).bit = s.bit := by unfold driveSck; split <;> simp_all
@[simp] theorem driveSck_phase (b : Level) (s : State) : (driveSck b s).phase = s.phase := by unfold driveSck; split <;> simp_all
@[simp] theorem driveSck_stat (b : Level) (s : State) : (driveSck b s).stat = s.stat := by unfold driveSck; split <;> simp_all
@[simp] theorem driveSck_results (b : Level) (s : State) : (driveSck b s).results = s.results := by unfold driveSck; split <;> simp_all
@[simp] theorem driveSck_params (b : Level) (s : State) : (driveSck b s).params = s.params := by unfold driveSck; split <;> simp_all
@[simp] theorem driveSck_port (b : Level) (s : State) : (driveSck b s).port = s.port := by unfold driveSck; split <;> simp_all
@[simp] theorem driveSck_miso (b : Level) (s : State) : (driveSck b s).miso = s.miso := by unfold driveSck; split <;> simp_all
@[simp] theorem driveSck_samples (b : Level) (s : State) : (driveSck b s).samples = s.samples := by unfold driveSck; split <;> simp_all

@[simp] theorem driveCsn_sck (b : Level) (s : State) : (driveCsn b s).sck = s.sck := by unfold driveCsn; split <;> simp_all
@[simp] theorem driveCsn_mosi (b : Level) (s : State) : (driveCsn b s).mosi = s.mosi := by unfold driveCsn; split <;> simp_all
@[simp] theorem driveCsn_csn (b : Level) (s : State) : (driveCsn b s).csn = b := by unfold driveCsn; split <;> simp_all
@[simp] theorem driveCsn_ce (b : Level) (s : State) : (driveCsn b s).ce = s.ce := by unfold driveCsn; split <;> simp_all
@[simp] theorem driveCsn_sho (b : Level) (s : State) : (driveCsn b s).sho = s.sho := by unfold driveCsn; split <;> simp_all
@[simp] theorem driveCsn_shi (b : Level) (s : State) : (driveCsn b s).shi = s.shi := by unfold driveCsn; split <;> simp_all
@[simp] theorem driveCsn_bit (b : Level) (s : State) : (driveCsn b s).bit = s.bit := by unfold driveCsn; split <;> simp_all
@[simp] theorem driveCsn_phase (b : Level) (s : State) : (driveCsn b s).phase = s.phase := by unfold driveCsn; split <;> simp_all
@[simp] theorem driveCsn_stat (b : Level) (s : State) : (driveCsn b s).stat = s.stat := by unfold driveCsn; split <;> simp_all
@[simp] theorem driveCsn_results (b : Level) (s : State) : (driveCsn b s).results = s.results := by unfold driveCsn; split <;> simp_all
@[simp] theorem driveCsn_params (b : Level) (s : State) : (driveCsn b s).params = s.params := by unfold driveCsn; split <;> simp_all
@[simp] theorem driveCsn_port (b : Level) (s : State) : (driveCsn b s).port = s.port := by unfold driveCsn; split <;> simp_all
@[simp] theorem driveCsn_miso (b : Level) (s : State) : (driveCsn b s).miso = s.miso := by unfold driveCsn; split <;> simp_all
@[simp] theorem driveCsn_samples (b : Level) (s : State) : (driveCsn b s).samples = s.samples := by unfold driveCsn; split <;> simp_all

@[simp] theorem driveCe_sck (b : Level) (s : State) : (driveCe b s).sck = s.sck := by unfold driveCe; split <;> simp_all
@[simp] theorem driveCe_mosi (b : Level) (s : State) : (driveCe b s).mosi = s.mosi := by unfold driveCe; split <;> simp_all
@[simp] theorem driveCe_csn (b : Level) (s : State) : (driveCe b s).csn = s.csn := by unfold driveCe; split <;> simp_all
@[simp] theorem driveCe_ce (b : Level) (s : State) : (driveCe b s).ce = b := by unfold driveCe; split <;> simp_all
@[simp] theorem driveCe_sho (b : Level) (s : State) : (driveCe b s).sho = s.sho := by unfold driveCe; split <;> simp_all
@[simp] theorem driveCe_shi (b : Level) (s : State) : (driveCe b s).shi = s.shi := by unfold driveCe; split <;> simp_all
@[simp] theorem driveCe_bit (b : Level) (s : State) : (driveCe b s).bit = s.bit := by unfold driveCe; split <;> simp_all
@[simp] theorem driveCe_phase (b : Level) (s : State) : (driveCe b s).phase = s.phase := by unfold driveCe; split <;> simp_all
@[simp] theorem driveCe_stat (b : Level) (s : State) : (driveCe b s).stat = s.stat := by unfold driveCe; split <;> simp_all
@[simp] theorem driveCe_results (b : Level) (s : State) : (driveCe b s).results = s.results := by unfold driveCe; split <;> simp_all
@[simp] theorem driveCe_params (b : Level) (s : State) : (driveCe b s).params = s.params := by unfold driveCe; split <;> simp_all
@[simp] theorem driveCe_port (b : Level) (s : State) : (driveCe b s).port = s.port := by unfold driveCe; split <;> simp_all
@[simp] theorem driveCe_miso (b : Level) (s : State) : (driveCe b s).miso = s.miso := by unfold driveCe; split <;> simp_all
@[simp] theorem driveCe_samples (b : Level) (s : State) : (driveCe b s).samples = s.samples := by unfold driveCe; split <;> simp_all

@[simp] theorem driveMosi_sck (b : Level) (s : State) : (driveMosi b s).sck = s.sck := rfl
@[simp] theorem driveMosi_mosi (b : Level) (s : State) : (driveMosi b s).mosi = b := rfl
@[simp] theorem driveMosi_csn (b : Level) (s : State) : (driveMosi b s).csn = s.csn := rfl
@[simp] theorem driveMosi_ce (b : Level) (s : State) : (driveMosi b s).ce = s.ce := rfl
@[simp] theorem driveMosi_sho (b : Level) (s : State) : (driveMosi b s).sho = s.sho := rfl
@[simp] theorem driveMosi_shi (b : Level) (s : State) : (driveMosi b s).shi = s.shi := rfl
@[simp] theorem driveMosi_bit (b : Level) (s : State) : (driveMosi b s).bit = s.bit := rfl
@[simp] theorem driveMosi_phase (b : Level) (s : State) : (driveMosi b s).phase = s.phase := rfl
@[simp] theorem driveMosi_stat (b : Level) (s : State) : (driveMosi b s).stat = s.stat := rfl
@[simp] theorem driveMosi_trace (b : Level) (s : State) : (driveMosi b s).trace = s.trace := rfl
@[simp] theorem driveMosi_results (b : Level) (s : State) : (driveMosi b s).results = s.results := rfl
@[simp] theorem driveMosi_params (b : Level) (s : State) : (driveMosi b s).params = s.params := rfl
@[simp] theorem driveMosi_port (b : Level) (s : State) : (driveMosi b s).port = s.port := rfl
@[simp] theorem driveMosi_miso (b : Level) (s : State) : (driveMosi b s).miso = s.miso := rfl
@[simp] theorem driveMosi_samples (b : Level) (s : State) : (driveMosi b s).samples = s.samples := rfl

@[simp] theorem sampleShift_sck (s : State) : (sampleShift s).sck = s.sck := rfl
@[simp] theorem sampleShift_mosi (s : State) : (sampleShift s).mosi = s.mosi := rfl
@[simp] theorem sampleShift_csn (s : State) : (sampleShift s).csn = s.csn := rfl
@[simp] theorem sampleShift_ce (s : State) : (sampleShift s).ce = s.ce := rfl
@[simp] theorem sampleShift_sho (s : State) : (sampleShift s).sho = s.sho := rfl
@[simp] theorem sampleShift_shi (s : State) : (sampleShift s).shi = (s.shi <<< 1) ||| levelByte (s.nextLevel 0) := rfl
@[simp] theorem sampleShift_bit (s : State) : (sampleShift s).bit = s.bit := rfl
@[simp] theorem sampleShift_phase (s : State) : (sampleShift s).phase = s.phase := rfl
@[simp] theorem sampleShift_stat (s : State) : (sampleShift s).stat = s.stat := rfl
@[simp] theorem sampleShift_trace (s : State) : (sampleShift s).trace = s.trace ++ [.sample (s.nextLevel 0)] := rfl
@[simp] theorem sampleShift_results (s : State) : (sampleShift s).results = s.results := rfl
@[simp] theorem sampleShift_params (s : State) : (sampleShift s).params = s.params := rfl
@[simp] theorem sampleShift_port (s : State) : (sampleShift s).port = s.port := rfl
@[simp] theorem sampleShift_miso (s : State) : (sampleShift s).miso = s.miso.tail := rfl
@[simp] theorem sampleShift_samples (s : State) : (sampleShift s).samples = s.samples + 1 := rfl

@[simp] theorem afterFrame_sck (s : State) (c : Byte) (d : List Byte) (res : Result) : (s.afterFrame c d res).sck = s.sck := rfl
@[simp] theorem afterFrame_mosi (s : State) (c : Byte) (d : List Byte) (res : Result) : (s.afterFrame c d res).mosi = (d.getLastD c).getLsbD 0 := rfl
@[simp] theorem afterFrame_csn (s : State) (c : Byte) (d : List Byte) (res : Result) : (s.afterFrame c d res).csn = s.csn := rfl
@[simp] theorem afterFrame_ce (s : State) (c : Byte) (d : List Byte) (res : Result) : (s.afterFrame c d res).ce = s.ce := rfl
@[simp] theorem afterFrame_sho (s : State) (c : Byte) (d : List Byte) (res : Result) : (s.afterFrame c d res).sho = d.getLastD c := rfl
@[simp] theorem afterFrame_shi (s : State) (c : Byte) (d : List Byte) (res : Result) : (s.afterFrame c d res).shi = s.inByte d.length := rfl
@[simp] theorem afterFrame_bit (s : State) (c : Byte) (d : List Byte) (res : Result) : (s.afterFrame c d res).bit = 0 := rfl
@[simp] theorem afterFrame_phase (s : State) (c : Byte) (d : List Byte) (res : Result) : (s.afterFrame c d res).phase = s.phase := rfl
@[simp] theorem afterFrame_stat (s : State) (c : Byte) (d : List Byte) (res : Result) : (s.afterFrame c d res).stat = s.inByte 0 := rfl
@[simp] theorem afterFrame_trace (s : State) (c : Byte) (d : List Byte) (res : Result) : (s.afterFrame c d res).trace = s.trace ++ frameEvents (c :: d) (s.inBytes 0 (d.length + 1)) := rfl
@[simp] theorem afterFrame_results (s : State) (c : Byte) (d : List Byte) (res : Result) : (s.afterFrame c d res).results = s.results ++ [res] := rfl
@[simp] theorem afterFrame_params (s : State) (c : Byte) (d : List Byte) (res : Result) : (s.afterFrame c d res).params = s.params := rfl
@[simp] theorem afterFrame_port (s : State) (c : Byte) (d : List Byte) (res : Result) : (s.afterFrame c d res).port = s.port := rfl
@[simp] theorem afterFrame_miso (s : State) (c : Byte) (d : List Byte) (res : Result) : (s.afterFrame c d res).miso = s.miso.drop (8 * (d.length + 1)) := rfl
@[simp] theorem afterFrame_samples (s : State) (c : Byte) (d : List Byte) (res : Result) : (s.afterFrame c d res).samples = s.samples + 8 * (d.length + 1) := rfl

@[simp] theorem afterCsn_sck (s : State) (b : Level) : (s.afterCsn b).sck = s.sck := rfl
@[simp] theorem afterCsn_mosi (s : State) (b : Level) : (s.afterCsn b).mosi = s.mosi := rfl
@[simp] theorem afterCsn_csn (s : State) (b : Level) : (s.afterCsn b).csn = b := rfl
@[simp] theorem afterCsn_ce (s : State) (b : Level) : (s.afterCsn b).ce = s.ce := rfl
@[simp] theorem afterCsn_sho (s : State) (b : Level) : (s.afterCsn b).sho = s.sho := rfl
@[simp] theorem afterCsn_shi (s : State) (b : Level) : (s.afterCsn b).shi = s.shi := rfl
@[simp] theorem afterCsn_bit (s : State) (b : Level) : (s.afterCsn b).bit = s.bit := rfl
@[simp] theorem afterCsn_phase (s : State) (b : Level) : (s.afterCsn b).phase = s.phase := rfl
@[simp] theorem afterCsn_stat (s : State) (b : Level) : (s.afterCsn b).stat = s.stat := rfl
@[simp] theorem afterCsn_trace (s : State) (b : Level) : (s.afterCsn b).trace = s.trace ++ (if s.csn = b then [] else [if b then .csnUp else .csnDown]) := rfl
@[simp] theorem afterCsn_results (s : State) (b : Level) : (s.afterCsn b).results = s.results ++ [{ status := none, data := none }] := rfl
@[simp] theorem afterCsn_params (s : State) (b : Level) : (s.afterCsn b).params = s.params := rfl
@[simp] theorem afterCsn_port (s : State) (b : Level) : (s.afterCsn b).port = s.port := rfl
@[simp] theorem afterCsn_miso (s : State) (b : Level) : (s.afterCsn b).miso = s.miso := rfl
@[simp] theorem afterCsn_samples (s : State) (b : Level) : (s.afterCsn b).samples = s.samples := rfl

@[simp] theorem afterCe_sck (s : State) (b : Level) (es : List Event) : (s.afterCe b es).sck = s.sck := rfl
@[simp] theorem afterCe_mosi (s : State) (b : Level) (es : List Event) : (s.afterCe b es).mosi = s.mosi := rfl
@[simp] theorem afterCe_csn (s : State) (b : Level) (es : List Event) : (s.afterCe b es).csn = s.csn := rfl
@[simp] theorem afterCe_ce (s : State) (b : Level) (es : List Event) : (s.afterCe b es).ce = b := rfl
@[simp] theorem afterCe_sho (s : State) (b : Level) (es : List Event) : (s.afterCe b es).sho = s.sho := rfl
@[simp] theorem afterCe_shi (s : State) (b : Level) (es : List Event) : (s.afterCe b es).shi = s.shi := rfl
@[simp] theorem afterCe_bit (s : State) (b : Level) (es : List Event) : (s.afterCe b es).bit = s.bit := rfl
@[simp] theorem afterCe_phase (s : State) (b : Level) (es : List Event) : (s.afterCe b es).phase = s.phase := rfl
@[simp] theorem afterCe_stat (s : State) (b : Level) (es : List Event) : (s.afterCe b es).stat = s.stat := rfl
@[simp] theorem afterCe_trace (s : State) (b : Level) (es : List Event) : (s.afterCe b es).trace = s.trace ++ es := rfl
@[simp] theorem afterCe_results (s : State) (b : Level) (es : List Event) : (s.afterCe b es).results = s.results ++ [{ status := none, data := none }] := rfl
@[simp] theorem afterCe_params (s : State) (b : Level) (es : List Event) : (s.afterCe b es).params = s.params := rfl
@[simp] theorem afterCe_port (s : State) (b : Level) (es : List Event) : (s.afterCe b es).port = s.port := rfl
@[simp] theorem afterCe_miso (s : State) (b : Level) (es : List Event) : (s.afterCe b es).miso = s.miso := rfl
@[simp] theorem afterCe_samples (s : State) (b : Level) (es : List Event) : (s.afterCe b es).samples = s.samples := rfl

@[simp] theorem afterBytes_sck (s : State) (os : List Byte) : (s.afterBytes os).sck = s.sck := by unfold State.afterBytes; split <;> rfl
@[simp] theorem afterBytes_csn (s : State) (os : List Byte) : (s.afterBytes os).csn = s.csn := by unfold State.afterBytes; split <;> rfl
@[simp] theorem afterBytes_ce (s : State) (os : List Byte) : (s.afterBytes os).ce = s.ce := by unfold State.afterBytes; split <;> rfl
@[simp] theorem afterBytes_phase (s : State) (os : List Byte) : (s.afterBytes os).phase = s.phase := by unfold State.afterBytes; split <;> rfl
@[simp] theorem afterBytes_stat (s : State) (os : List Byte) : (s.afterBytes os).stat = s.stat := by unfold State.afterBytes; split <;> rfl
@[simp] theorem afterBytes_results (s : State) (os : List Byte) : (s.afterBytes os).results = s.results := by unfold State.afterBytes; split <;> rfl
@[simp] theorem afterBytes_params (s : State) (os : List Byte) : (s.afterBytes os).params = s.params := by unfold State.afterBytes; split <;> rfl
@[simp] theorem afterBytes_port (s : State) (os : List Byte) : (s.afterBytes os).port = s.port := by unfold State.afterBytes; split <;> rfl

theorem driveSck_trace (b : Level) (s : State) :
    (driveSck b s).trace = s.trace ++ if s.sck = b then [] else [if b then .sckUp s.mosi else .sckDown] := by
  unfold driveSck; split <;> simp_all

theorem driveCsn_trace (b : Level) (s : State) :
    (driveCsn b s).trace = s.trace ++ if s.csn = b then [] else [if b then .csnUp else .csnDown] := by
  unfold driveCsn; split <;> simp_all

theorem driveCe_trace (b : Level) (s : State) :
    (driveCe b s).trace = s.trace ++ if s.ce = b then [] else [if b then .ceUp else .ceDown] := by
  unfold driveCe; split <;> simp_all

end Sys2Proof.Machine
end

