-- ==== Sys2Proof/Laws/Ops.lean ====
section
/-! SUPPORT. One lemma per shared operation: what the primitives, a byte, a data phase, a frame, the refusal check and a
performed request do. -/

namespace Sys2Proof.Machine

@[simp] theorem runMicros_nil (x : Run) : runMicros [] x = x := rfl

@[simp] theorem runMicros_cons (m : Micro) (ms : List Micro) (x : Run) :
    runMicros (m :: ms) x = runMicros ms (m.run x) := rfl

theorem runMicros_append (l m : List Micro) (x : Run) : runMicros (l ++ m) x = runMicros m (runMicros l x) := by
  induction l generalizing x with
  | nil => rfl
  | cons a l ih => exact ih (a.run x)

/-- The levels to come depend on `miso` and `samples` alone. -/
theorem nextLevel_congr {s t : State} (hm : s.miso = t.miso) (hs : s.samples = t.samples) (k : Nat) :
    s.nextLevel k = t.nextLevel k := by
  simp only [State.nextLevel, hm, hs]

/-- After `j` samples the level to come at `k` is the one that was to come at `j + k`. -/
theorem nextLevel_drop {s t : State} {j : Nat} (hm : t.miso = s.miso.drop j) (hs : t.samples = s.samples + j) (k : Nat) :
    t.nextLevel k = s.nextLevel (j + k) := by
  simp only [State.nextLevel, hm, hs, List.getD_eq_getElem?_getD, List.getElem?_drop, Nat.add_assoc]

/-- After `j` bytes the byte to come at `k` is the one that was to come at `j + k`. -/
theorem inByte_drop {s t : State} {j : Nat} (hm : t.miso = s.miso.drop (8 * j)) (hs : t.samples = s.samples + 8 * j)
    (k : Nat) : t.inByte k = s.inByte (j + k) := by
  simp only [State.inByte, nextLevel_drop hm hs, Nat.mul_add, Nat.add_assoc]

theorem inByte_congr {s t : State} (hm : s.miso = t.miso) (hs : s.samples = t.samples) (k : Nat) :
    s.inByte k = t.inByte k := by
  simp only [State.inByte, nextLevel_congr hm hs]

/-- The bit cycle (40 R64) with the clock low at its start: one bit out, one bit in, the clock low at its end. -/
theorem run_bitCycle (k : BitVec 3) (x : Run) (h : x.st.sck = false) :
    runMicros (bitCycle k) x =
      { x with
        st := { x.st with
          bit := k
          mosi := x.st.sho.getLsbD k.toNat
          shi := (x.st.shi <<< 1) ||| levelByte (x.st.nextLevel 0)
          trace := x.st.trace ++ bitEvents (x.st.sho.getLsbD k.toNat) (x.st.nextLevel 0)
          miso := x.st.miso.tail
          samples := x.st.samples + 1 } } := by
  simp [bitCycle, Micro.run, drive, driveSck, driveMosi, sampleShift, State.nextLevel, bitEvents, h]

/-- Eight levels shifted in from the right are the byte that reads them first level in bit 7. -/
theorem shift_in_eight : ∀ a b c d e f g h : Level,
    ((((((((0 <<< 1 ||| levelByte a) <<< 1 ||| levelByte b) <<< 1 ||| levelByte c) <<< 1 ||| levelByte d) <<< 1 |||
      levelByte e) <<< 1 ||| levelByte f) <<< 1 ||| levelByte g) <<< 1 ||| levelByte h) =
      byteOfLevels a b c d e f g h := by decide

/-- The eight bits of `byteOfLevels`, bit 7 first. -/
theorem byteOfLevels_bits : ∀ a b c d e f g h : Level,
    [7, 6, 5, 4, 3, 2, 1, 0].map (byteOfLevels a b c d e f g h).getLsbD = [a, b, c, d, e, f, g, h] := by decide

/-- The levels to come after one sample. -/
@[simp] theorem nextLevel_tail (s t : State) (hm : t.miso = s.miso.tail) (hs : t.samples = s.samples + 1) (k : Nat) :
    t.nextLevel k = s.nextLevel (k + 1) := by
  rw [nextLevel_drop (j := 1) (by simp [hm]) hs, Nat.add_comm]

/-- The transfer of one byte (40 R68) with the clock low at its start: the closed form of `byteMicros`. -/
theorem run_byteMicros (b : Byte) (x : Run) (h : x.st.sck = false) :
    runMicros (byteMicros b) x =
      { x with
        st := { x.st with
          sho := b
          shi := x.st.inByte 0
          bit := 0
          mosi := b.getLsbD 0
          trace := x.st.trace ++ byteEvents b (x.st.inByte 0)
          miso := x.st.miso.drop 8
          samples := x.st.samples + 8 } } := by
  have hbits := byteOfLevels_bits (x.st.nextLevel 0) (x.st.nextLevel 1) (x.st.nextLevel 2) (x.st.nextLevel 3)
    (x.st.nextLevel 4) (x.st.nextLevel 5) (x.st.nextLevel 6) (x.st.nextLevel 7)
  simp only [List.map_cons, List.map_nil, List.cons.injEq, and_true] at hbits
  obtain ⟨h7, h6, h5, h4, h3, h2, h1, h0⟩ := hbits
  have hin : x.st.inByte 0 = byteOfLevels (x.st.nextLevel 0) (x.st.nextLevel 1) (x.st.nextLevel 2) (x.st.nextLevel 3)
    (x.st.nextLevel 4) (x.st.nextLevel 5) (x.st.nextLevel 6) (x.st.nextLevel 7) := rfl
  have hev : byteEvents b (x.st.inByte 0) =
      bitEvents (b.getLsbD 7) (x.st.nextLevel 0) ++ bitEvents (b.getLsbD 6) (x.st.nextLevel 1) ++
      bitEvents (b.getLsbD 5) (x.st.nextLevel 2) ++ bitEvents (b.getLsbD 4) (x.st.nextLevel 3) ++
      bitEvents (b.getLsbD 3) (x.st.nextLevel 4) ++ bitEvents (b.getLsbD 2) (x.st.nextLevel 5) ++
      bitEvents (b.getLsbD 1) (x.st.nextLevel 6) ++ bitEvents (b.getLsbD 0) (x.st.nextLevel 7) := by
    simp only [byteEvents, hin, h7, h6, h5, h4, h3, h2, h1, h0]
  have hlev : ∀ (s : State) (k : Nat), s.nextLevel k = s.miso.getD k (Config.freeMiso (s.samples + k)) :=
    fun _ _ => rfl
  rw [hev, hin, ← shift_in_eight]
  simp [byteMicros, runMicros_append, run_bitCycle, Micro.run, h, hlev, Nat.add_assoc, List.append_assoc]
  simp only [← List.drop_one, List.drop_drop]

@[simp] theorem inBytes_zero (s : State) (k : Nat) : s.inBytes k 0 = [] := rfl

@[simp] theorem inBytes_length (s : State) (k n : Nat) : (s.inBytes k n).length = n := by simp [State.inBytes]

theorem inBytes_succ (s : State) (k n : Nat) : s.inBytes k (n + 1) = s.inByte k :: s.inBytes (k + 1) n := rfl

theorem inBytes_add (s : State) (k n m : Nat) : s.inBytes k (n + m) = s.inBytes k n ++ s.inBytes (k + n) m := by
  simp only [State.inBytes, ← List.range'_append_1, List.map_append]

/-- After `j` bytes the bytes to come from `k` on are those that were to come from `j + k` on. -/
theorem inBytes_drop {s t : State} {j : Nat} (hm : t.miso = s.miso.drop (8 * j)) (hs : t.samples = s.samples + 8 * j)
    (k n : Nat) : t.inBytes k n = s.inBytes (j + k) n := by
  induction n generalizing k with
  | zero => rfl
  | succ n ih => rw [inBytes_succ, inBytes_succ, inByte_drop hm hs, ih, Nat.add_assoc]

theorem bytesEvents_cons (o i : Byte) (os is : List Byte) :
    bytesEvents (o :: os) (i :: is) = byteEvents o i ++ bytesEvents os is := rfl

theorem bytesEvents_append {os is : List Byte} (h : os.length = is.length) (os' is' : List Byte) :
    bytesEvents (os ++ os') (is ++ is') = bytesEvents os is ++ bytesEvents os' is' := by
  simp only [bytesEvents, List.zipWith_append h, List.flatten_append]

@[simp] theorem afterBytes_nil (s : State) : s.afterBytes [] = s := rfl

/-- The closed form of a non-empty transfer, by its last byte. -/
theorem afterBytes_of_getLast (s : State) {os : List Byte} {o : Byte} (h : os.getLast? = some o) :
    s.afterBytes os =
      { s with
        mosi := o.getLsbD 0
        sho := o
        shi := s.inByte (os.length - 1)
        bit := 0
        trace := s.trace ++ bytesEvents os (s.inBytes 0 os.length)
        miso := s.miso.drop (8 * os.length)
        samples := s.samples + 8 * os.length } := by
  unfold State.afterBytes; rw [h]

/-- Transferring `b` and then the bytes `d` is transferring `b :: d`. -/
theorem afterBytes_cons (s : State) (b : Byte) (d : List Byte) :
    s.afterBytes (b :: d) = (s.afterBytes [b]).afterBytes d := by
  cases hd : d.getLast? with
  | none =>
    rw [List.getLast?_eq_none_iff] at hd
    rw [hd, afterBytes_nil]
  | some o =>
    have hne : d ≠ [] := by rintro rfl; simp at hd
    have hlen : 0 < d.length := List.length_pos_iff.mpr hne
    have hb : (b :: d).getLast? = some o := by rw [List.getLast?_cons, hd]; rfl
    have h1 : (s.afterBytes [b]).inBytes 0 d.length = s.inBytes 1 d.length :=
      inBytes_drop (j := 1) rfl rfl 0 d.length
    have h2 : (s.afterBytes [b]).inByte (d.length - 1) = s.inByte d.length := by
      rw [inByte_drop (s := s) (j := 1) rfl rfl]
      congr 1
      omega
    have h3 : s.inBytes 0 (d.length + 1) = s.inByte 0 :: s.inBytes 1 d.length := inBytes_succ s 0 _
    have h4 : s.inBytes 0 1 = [s.inByte 0] := rfl
    have h5 : bytesEvents [b] [s.inByte 0] = byteEvents b (s.inByte 0) := by simp [bytesEvents]
    rw [afterBytes_of_getLast s hb, afterBytes_of_getLast _ hd, h1, h2]
    simp [afterBytes_of_getLast s (List.getLast?_singleton (a := b)), h3, h4, h5, bytesEvents_cons, Nat.mul_add,
      Nat.add_assoc, Nat.add_comm 8]

@[simp] theorem afterBytes_with_phase (s : State) (p : Phase) (d : List Byte) :
    ({ s with phase := p } : State).afterBytes d = { s.afterBytes d with phase := p } := by
  unfold State.afterBytes; split <;> rfl

/-- `run_byteMicros` in the terms of `afterBytes`. -/
theorem run_byteMicros_after (b : Byte) (x : Run) (h : x.st.sck = false) :
    runMicros (byteMicros b) x = { x with st := x.st.afterBytes [b] } := by
  rw [run_byteMicros b x h]
  simp only [State.afterBytes, List.getLast?_singleton, List.length_singleton, State.inBytes, List.range',
    List.map_cons, List.map_nil, bytesEvents, List.zipWith, List.flatten_cons, List.flatten_nil, List.append_nil,
    Nat.mul_one, Nat.sub_self]

theorem settlePoint_run (r : Level) (k : Nat) (x : Run) : runMicros (settlePoint r k) x = x := by
  unfold settlePoint; split <;> rfl

/-- The data phase from byte `k` of `n` on (42 R75): its bytes are transferred and what arrives is kept in order; only
`PHASE` besides is written. -/
theorem run_dataMicrosFrom (r : Level) (n k : Nat) (d : List Byte) (x : Run) (h : x.st.sck = false) :
    ∃ p, runMicros (dataMicrosFrom r n k d) x =
      { st := { x.st.afterBytes d with phase := p }, buf := x.buf ++ x.st.inBytes 0 d.length } := by
  induction d generalizing k x with
  | nil => exact ⟨x.st.phase, by simp [dataMicrosFrom]⟩
  | cons b d ih =>
    obtain ⟨p, hp⟩ := ih (k + 1)
      { st := { x.st.afterBytes [b] with phase := .data k n }, buf := x.buf ++ [x.st.inByte 0] } (by simpa using h)
    refine ⟨p, ?_⟩
    have hstep : runMicros (dataMicrosFrom r n k (b :: d)) x =
        runMicros (dataMicrosFrom r n (k + 1) d)
          { st := { x.st.afterBytes [b] with phase := .data k n }, buf := x.buf ++ [x.st.inByte 0] } := by
      simp only [dataMicrosFrom, runMicros_append, settlePoint_run, runMicros_cons, runMicros_nil, Micro.run]
      rw [run_byteMicros_after b { x with st := { x.st with phase := .data k n } } h, afterBytes_with_phase]
      rfl
    rw [hstep, hp, afterBytes_cons x.st b d]
    have hin : (x.st.afterBytes [b]).inBytes 0 d.length = x.st.inBytes 1 d.length :=
      inBytes_drop (j := 1) rfl rfl 0 d.length
    have hph : ({ x.st.afterBytes [b] with phase := .data k n } : State).inBytes 0 d.length =
      (x.st.afterBytes [b]).inBytes 0 d.length := rfl
    simp only [afterBytes_with_phase, hph, hin, List.length_cons, inBytes_succ, List.append_assoc,
      List.singleton_append, Nat.zero_add]

/-- The data phase of 42 R75. -/
theorem run_dataMicros (r : Level) (d : List Byte) (x : Run) (h : x.st.sck = false) :
    ∃ p, runMicros (dataMicros r d) x =
      { st := { x.st.afterBytes d with phase := p }, buf := x.buf ++ x.st.inBytes 0 d.length } :=
  run_dataMicrosFrom r d.length 0 d x h

end Sys2Proof.Machine
end

