-- ==== Sys2Proof/Laws/Requests.lean ====
section
/-! SUPPORT. What performing a request does: the frame, the refusal check, and `perform`. -/

namespace Sys2Proof.Machine

/-- A frame (42 R75) from an idle block with the clock low and chip-select released: its closed form. -/
theorem run_frameMicros (c : Byte) (d : List Byte) (r : Level) (s : State) (hi : s.phase = .idle) (hk : s.sck = false)
    (hc : s.csn = true) (res : Result) :
    runMicros (frameMicros c d r) { st := s, buf := [] } =
      { st := { s.afterFrame c d res with results := s.results }, buf := s.inBytes 1 d.length } := by
  let s1 : State := { s with phase := .command, csn := false, trace := s.trace ++ [.csnDown] }
  let s2 : State := { s1.afterBytes [c] with stat := s.inByte 0 }
  have hin : s2.inBytes 0 d.length = s.inBytes 1 d.length := inBytes_drop (j := 1) rfl rfl 0 d.length
  obtain ⟨p, hp⟩ := run_dataMicros r d { st := s2, buf := [] } hk
  have h1 : runMicros (frameMicros c d r) { st := s, buf := [] } =
      runMicros [.phase .release, .drive .csn true, .phase .idle]
        (runMicros (dataMicros r d) { st := s2, buf := [] }) := by
    have hb := run_byteMicros_after c { st := s1, buf := [] } hk
    have hs1 : (Micro.phase .command).run ((Micro.drive .csn false).run ((Micro.phase .select).run
        { st := s, buf := [] })) = { st := s1, buf := [] } := by
      simp [Micro.run, drive, driveCsn, hc, s1]
    simp only [frameMicros, runMicros_append, runMicros_cons, runMicros_nil]
    rw [hs1, hb]
    rfl
  rw [h1, hp]
  have hcons : s2.afterBytes d = { s1.afterBytes (c :: d) with stat := s.inByte 0 } := by
    rw [afterBytes_cons]
    unfold State.afterBytes
    cases d.getLast? <;> rfl
  have hlast : (c :: d).getLast? = some (d.getLastD c) := by
    rw [List.getLast?_cons, List.getLastD_eq_getLast?]
  have hin0 : s1.inBytes 0 (d.length + 1) = s.inBytes 0 (d.length + 1) := rfl
  have hshi : s1.inByte d.length = s.inByte d.length := rfl
  simp only [runMicros_cons, runMicros_nil, Micro.run, drive, hcons, afterBytes_of_getLast s1 hlast, hin0, hshi,
    List.length_cons, Nat.add_sub_cancel, hin, List.nil_append]
  simp [driveCsn, State.afterFrame, frameEvents, s1, hk, hi, hc]

/-- When the refusal check passes: `IDLE`, a well-formed record, the length within `MAXLEN`, and chip-select released
for a sequenced command. -/
theorem refusalOf_eq_none {framed : Bool} {len : Nat} {s : State} :
    refusalOf framed len s = none ↔
      s.phase = .idle ∧ s.params.wf = true ∧ len ≤ s.params.maxLen ∧ (framed = true → s.csn = true) := by
  unfold refusalOf
  have h3 : s.params.maxLen < len ↔ ¬ len ≤ s.params.maxLen := Nat.not_le.symm
  by_cases h1 : s.phase = .idle <;> by_cases h2 : s.params.wf = true <;>
    by_cases h4 : len ≤ s.params.maxLen <;> cases framed <;> cases hc : s.csn <;> simp [h1, h2, h3, h4]

/-- A request that answers a next state was not refused, and its next state is that of its micro-steps. -/
theorem perform_next {framed : Bool} {len : Nat} {ms : List Micro} {reply : Run → Result} {s t : State}
    (h : perform framed len ms reply s = .next t) :
    refusalOf framed len s = none ∧ t = deliver reply (runMicros ms { st := s, buf := [] }) := by
  unfold perform at h
  split at h
  · cases h
  · rename_i hn
    exact ⟨hn, by cases h; rfl⟩

/-- A request that is not refused performs its micro-steps. -/
theorem perform_of_accepted {framed : Bool} {len : Nat} (ms : List Micro) (reply : Run → Result) {s : State}
    (h : refusalOf framed len s = none) :
    perform framed len ms reply s = .next (deliver reply (runMicros ms { st := s, buf := [] })) := by
  unfold perform; rw [h]

/-- A refused request is refused for the reason of `refusalOf`. -/
theorem perform_of_refused {framed : Bool} {len : Nat} (ms : List Micro) (reply : Run → Result) {s : State}
    {r : Refusal} (h : refusalOf framed len s = some r) : perform framed len ms reply s = .refused r := by
  unfold perform; rw [h]

/-- No request faults (60 R102). -/
theorem perform_no_fault {framed : Bool} {len : Nat} {ms : List Micro} {reply : Run → Result} {s : State} {f : Fault} :
    perform framed len ms reply s ≠ .fault f := nomatch f

/-- A sequenced command that is accepted with the clock low: one frame, delivered (42 R75). -/
theorem sequenced_eq {len : Nat} (c : Byte) (d : List Byte) (r : Level) (reply : Run → Result) {s : State}
    (ha : refusalOf true len s = none) (hk : s.sck = false) (res : Result)
    (hr : ∀ x : Run, x.st.stat = s.inByte 0 → x.buf = s.inBytes 1 d.length → reply x = res) :
    sequenced len c d r reply s = .next (s.afterFrame c d res) := by
  obtain ⟨hi, -, -, hc⟩ := refusalOf_eq_none.mp ha
  unfold sequenced
  rw [perform_of_accepted _ _ ha, run_frameMicros c d r s hi hk (hc rfl) res]
  unfold deliver
  rw [hr _ rfl rfl]
  rfl

/-- A write frame that is accepted: the status is the byte received during the command byte, the rest is discarded
(42 R76). -/
theorem writeFrame_eq (c : Byte) (d : List Byte) {s : State} (ha : refusalOf true d.length s = none)
    (hk : s.sck = false) :
    writeFrame c d s = .next (s.afterFrame c d { status := some (s.inByte 0), data := none }) :=
  sequenced_eq c d false replyStatus ha hk _ fun x hs _ => by rw [replyStatus, hs]

/-- A read frame that is accepted: the status, and the bytes received during the data phase (42 R76, R78). -/
theorem readFrame_eq (c : Byte) (n : Nat) {s : State} (ha : refusalOf true n s = none) (hk : s.sck = false) :
    readFrame c n s = .next (s.afterFrame c (dummies s.params n)
      { status := some (s.inByte 0), data := some (s.inBytes 1 n) }) :=
  sequenced_eq c _ true replyStatusData ha hk _ fun x hs hb => by
    rw [replyStatusData, hs, hb, dummies, List.length_replicate]

end Sys2Proof.Machine
end

