-- ==== Sys2Proof/Laws/Exec.lean ====
section
/-! SUPPORT. Every instruction as one performed request: what `exec` can answer, said once; and what micro-steps leave
unchanged. -/

namespace Sys2Proof.Machine

/-- The micro-steps of an instruction that is accepted in a state. -/
def instrMicros (s : State) : Instr → List Micro
  | .wRreg ad n => frameMicros (readCommand s.params ad) (dummies s.params n) true
  | .wWreg ad d => frameMicros (writeCommand s.params ad) d false
  | .wRRxPlWid => frameMicros s.params.codes.cmdRRxPlWid (dummies s.params 1) true
  | .wRRxPayload n => frameMicros s.params.codes.cmdRRxPayload (dummies s.params n) true
  | .wWTxPayload d => frameMicros s.params.codes.cmdWTxPayload d false
  | .wFlushTx => frameMicros s.params.codes.cmdFlushTx [] false
  | .wFlushRx => frameMicros s.params.codes.cmdFlushRx [] false
  | .csnLow => [.phase .select, .drive .csn false, .phase .idle]
  | .csnHigh => [.phase .release, .drive .csn true, .phase .idle]
  | .xfer b => [.phase (.data 0 1)] ++ byteMicros b ++ [.keep, .phase .idle]
  | .xferN d r => xferNMicros d r
  | .readReg a n => frameMicros (readCommand s.params (effAddr a)) (dummies s.params n) true
  | .writeReg a d => frameMicros (writeCommand s.params (effAddr a)) d false
  | .flushTx => frameMicros s.params.codes.cmdFlushTx [] false
  | .flushRx => frameMicros s.params.codes.cmdFlushRx [] false
  | .readPlWid => frameMicros s.params.codes.cmdRRxPlWid (dummies s.params 1) true
  | .readPayload n => frameMicros s.params.codes.cmdRRxPayload (dummies s.params n) true
  | .writePayload d => frameMicros s.params.codes.cmdWTxPayload d false
  | .ceHigh => [.phase .enable, .drive .ce true, .phase .idle]
  | .ceLow => [.phase .enable, .drive .ce false, .phase .idle]
  | .cePulse => cePulseMicros s.ce s.params.minimizeCurrent

/-- The result of an instruction. -/
def instrReply (i : Instr) : Run → Result :=
  match i with
  | .wRreg _ _ | .wRRxPlWid | .wRRxPayload _ | .readReg _ _ | .readPlWid | .readPayload _ => replyStatusData
  | .wWreg _ _ | .wWTxPayload _ | .wFlushTx | .wFlushRx | .writeReg _ _ | .flushTx | .flushRx | .writePayload _ =>
    replyStatus
  | .xfer _ | .xferN _ _ => replyData
  | .csnLow | .csnHigh | .ceHigh | .ceLow | .cePulse => replyNone

/-- Every instruction is one performed request. -/
theorem exec_eq_perform (i : Instr) (s : State) :
    exec i s = perform i.sequenced i.len (instrMicros s i) (instrReply i) s := by
  cases i <;> rfl

/-- What `exec` answering a next state means, for every instruction. -/
theorem exec_next {i : Instr} {s t : State} (h : exec i s = .next t) :
    refusalOf i.sequenced i.len s = none ∧
      t = deliver (instrReply i) (runMicros (instrMicros s i) { st := s, buf := [] }) :=
  perform_next (by rwa [exec_eq_perform] at h)

/-- When an instruction answers a next state, and which. -/
theorem exec_of_accepted {i : Instr} {s : State} (h : refusalOf i.sequenced i.len s = none) :
    exec i s = .next (deliver (instrReply i) (runMicros (instrMicros s i) { st := s, buf := [] })) := by
  rw [exec_eq_perform, perform_of_accepted _ _ h]

/-- What one micro-step leaves unchanged, and that it only appends to the trace. -/
theorem Micro.run_keeps (m : Micro) (x : Run) :
    (m.run x).st.params = x.st.params ∧ (m.run x).st.port = x.st.port ∧ (m.run x).st.results = x.st.results ∧
      x.st.trace <+: (m.run x).st.trace := by
  cases m with
  | drive l b =>
    cases l <;> simp [Micro.run, Machine.drive, driveSck_trace, driveCsn_trace, driveCe_trace, driveMosi]
  | sampleShift => simp [Micro.run]
  | phase p => simp [Micro.run]
  | loadSho b => simp [Micro.run]
  | clearShi => simp [Micro.run]
  | setBit k => simp [Micro.run]
  | driveBit => simp [Micro.run, driveMosi]
  | captureStat => simp [Micro.run]
  | keep => simp [Micro.run]
  | wait t => simp [Micro.run]

/-- What micro-steps leave unchanged, and that they only append to the trace. -/
theorem runMicros_keeps (ms : List Micro) (x : Run) :
    (runMicros ms x).st.params = x.st.params ∧ (runMicros ms x).st.port = x.st.port ∧
      (runMicros ms x).st.results = x.st.results ∧ x.st.trace <+: (runMicros ms x).st.trace := by
  induction ms generalizing x with
  | nil => exact ⟨rfl, rfl, rfl, List.prefix_rfl⟩
  | cons m ms ih =>
    obtain ⟨h1, h2, h3, h4⟩ := Micro.run_keeps m x
    obtain ⟨g1, g2, g3, g4⟩ := ih (m.run x)
    exact ⟨g1.trans h1, g2.trans h2, g3.trans h3, h4.trans g4⟩

end Sys2Proof.Machine
end

