-- ==== Sys2Proof/Laws/Client.lean ====
section
/-! SUPPORT. How a host program goes on from a request that completes, and what sequences of host programs do. -/

namespace Sys2Proof.Machine

@[simp] theorem HostProg.run_done {α : Type} (a : α) (s : State) : (HostProg.done a).run s = .next (a, s) := rfl

@[simp] theorem HostProg.requests_done {α : Type} (a : α) (s : State) : (HostProg.done a).requests s = [] := rfl

/-- A program whose request completes goes on from its result. -/
theorem HostProg.run_issue {α : Type} {i : Instr} {s t : State} (k : Result → HostProg α) (h : exec i s = .next t) :
    (HostProg.issue i k).run s = (k (lastResult t)).run t := by
  rw [HostProg.run, h]

/-- The requests of a program whose first request completes. -/
theorem HostProg.requests_issue {α : Type} {i : Instr} {s t : State} (k : Result → HostProg α)
    (h : exec i s = .next t) :
    (HostProg.issue i k).requests s = i :: (k (lastResult t)).requests t := by
  rw [HostProg.requests, h]

theorem issueAll_cons {α : Type} (i : Instr) (l : List Instr) (a : α) :
    issueAll (i :: l) a = .issue i fun _ => issueAll l a := rfl

/-- A program after another runs from where that one ended. -/
theorem HostProg.run_andThen {α β : Type} (p : HostProg α) (f : α → HostProg β) {a : α} {s t : State}
    (h : p.run s = .next (a, t)) : (p.andThen f).run s = (f a).run t := by
  induction p generalizing s with
  | done b => cases h; rfl
  | issue i k ih =>
    simp only [HostProg.run, HostProg.andThen] at h ⊢
    split at h
    · rename_i t' he
      exact ih _ h
    · cases h
    · cases h

/-- A program after another issues its requests after that one's. -/
theorem HostProg.requests_andThen {α β : Type} (p : HostProg α) (f : α → HostProg β) {a : α} {s t : State}
    (h : p.run s = .next (a, t)) : (p.andThen f).requests s = p.requests s ++ (f a).requests t := by
  induction p generalizing s with
  | done b => cases h; rfl
  | issue i k ih =>
    simp only [HostProg.run, HostProg.requests, HostProg.andThen] at h ⊢
    split at h
    · rename_i t' he
      rw [ih _ h]
      rfl
    · cases h
    · cases h

end Sys2Proof.Machine
end

