-- ==== Sys2Proof/Laws/Monitor.lean ====
section
/-! SUPPORT. What the protocol monitor reads in the events of a bit, a byte, a data phase and a frame. -/

namespace Sys2Proof.Machine

theorem Monitor.read_nil (m : Monitor) : m.read [] = some m := rfl

theorem Monitor.read_cons (m : Monitor) (e : Event) (es : List Event) :
    m.read (e :: es) = (m.next e).bind fun m' => m'.read es := by
  have hnone : ∀ l : List Event, l.foldl (fun o e => o.bind fun m' : Monitor => m'.next e) none = none := by
    intro l
    induction l with
    | nil => rfl
    | cons a l ih => exact ih
  simp only [Monitor.read, List.foldl_cons, Option.bind_some]
  cases m.next e with
  | none => exact hnone es
  | some m' => rfl

theorem Monitor.read_append (m : Monitor) (es fs : List Event) :
    m.read (es ++ fs) = (m.read es).bind fun m' => m'.read fs := by
  induction es generalizing m with
  | nil => rfl
  | cons e es ih =>
    simp only [List.cons_append, Monitor.read_cons]
    cases m.next e with
    | none => rfl
    | some m' => exact ih m'

/-- One bit, from the clock low: legal, and one bit more of the current byte. -/
theorem Monitor.read_bitEvents (m : Monitor) (b i : Level) (h : m.sck = false) :
    m.read (bitEvents b i) = some { m with bits := (m.bits + 1) % 8 } := by
  simp [bitEvents, Monitor.read_cons, Monitor.read_nil, Monitor.next, h]

/-- One byte, from the clock low: legal, and back where it began. -/
theorem Monitor.read_byteEvents (m : Monitor) (o i : Byte) (h : m.sck = false) (hb : m.bits = 0) :
    m.read (byteEvents o i) = some m := by
  cases m
  simp_all [byteEvents, Monitor.read_append, Monitor.read_bitEvents]

/-- Any number of bytes, from the clock low: legal, and back where it began. -/
theorem Monitor.read_bytesEvents (m : Monitor) (os is : List Byte) (h : m.sck = false) (hb : m.bits = 0) :
    m.read (bytesEvents os is) = some m := by
  induction os generalizing is with
  | nil => rfl
  | cons o os ih =>
    cases is with
    | nil => rfl
    | cons i is => rw [bytesEvents_cons, Monitor.read_append, Monitor.read_byteEvents m o i h hb]; exact ih is

/-- One frame, from the clock low and chip-select released: legal, and back where it began. -/
theorem Monitor.read_frameEvents (m : Monitor) (os is : List Byte) (h : m.sck = false) (hc : m.csn = true)
    (hb : m.bits = 0) : m.read (frameEvents os is) = some m := by
  cases m
  simp_all [frameEvents, Monitor.read_cons, Monitor.read_nil, Monitor.next, Monitor.read_append, Monitor.read_bytesEvents]

end Sys2Proof.Machine
end

