-- ==== Sys2Proof/Laws/PerInstr.lean ====
section
/-! SUPPORT. What the encoding of each instruction looks like, one lemma per constructor (spec 30 R55, R60, R61). -/

namespace Sys2Proof.Laws

/-- A request is encoded as a record whose code is not reserved (30 R55, R60); a wire command as a frame of one byte more
than its data phase (30 R61). -/
def EncodedForm.Statement (i : Instr) : Prop :=
  ∀ (w : WireCodes) (dummy : Byte),
    match encode w dummy i with
    | .request q => i.isRequest = true ∧ q.code ≠ 0x0 ∧ q.code ≠ 0xF
    | .frame bytes => i.isRequest = false ∧ bytes.length = 1 + i.dataBytes

/-- A frame of a command byte and `d`. -/
theorem EncodedForm.frame_length (c : Byte) (d : List Byte) : (c :: d).length = 1 + d.length := Nat.add_comm _ _

theorem EncodedForm.wRreg (ad : Addr5) (n : Nat) : EncodedForm.Statement (.wRreg ad n) := fun w dummy =>
  ⟨rfl, by rw [EncodedForm.frame_length, List.length_replicate, Instr.dataBytes]⟩

theorem EncodedForm.wWreg (ad : Addr5) (d : List Byte) : EncodedForm.Statement (.wWreg ad d) := fun _ _ =>
  ⟨rfl, EncodedForm.frame_length _ d⟩

theorem EncodedForm.wRRxPlWid : EncodedForm.Statement .wRRxPlWid := fun _ _ => ⟨rfl, rfl⟩

theorem EncodedForm.wRRxPayload (n : Nat) : EncodedForm.Statement (.wRRxPayload n) := fun _ _ =>
  ⟨rfl, by rw [EncodedForm.frame_length, List.length_replicate, Instr.dataBytes]⟩

theorem EncodedForm.wWTxPayload (d : List Byte) : EncodedForm.Statement (.wWTxPayload d) := fun _ _ =>
  ⟨rfl, EncodedForm.frame_length _ d⟩

theorem EncodedForm.wFlushTx : EncodedForm.Statement .wFlushTx := fun _ _ => ⟨rfl, rfl⟩

theorem EncodedForm.wFlushRx : EncodedForm.Statement .wFlushRx := fun _ _ => ⟨rfl, rfl⟩

theorem EncodedForm.csnLow : EncodedForm.Statement .csnLow := fun _ _ =>
  ⟨rfl, (by decide : (0x1 : BitVec 4) ≠ 0x0), (by decide : (0x1 : BitVec 4) ≠ 0xF)⟩

theorem EncodedForm.csnHigh : EncodedForm.Statement .csnHigh := fun _ _ =>
  ⟨rfl, (by decide : (0x2 : BitVec 4) ≠ 0x0), (by decide : (0x2 : BitVec 4) ≠ 0xF)⟩

theorem EncodedForm.xfer (b : Byte) : EncodedForm.Statement (.xfer b) := fun _ _ =>
  ⟨rfl, (by decide : (0x3 : BitVec 4) ≠ 0x0), (by decide : (0x3 : BitVec 4) ≠ 0xF)⟩

theorem EncodedForm.xferN (d : List Byte) (r : Level) : EncodedForm.Statement (.xferN d r) := fun _ _ =>
  ⟨rfl, (by decide : (0x4 : BitVec 4) ≠ 0x0), (by decide : (0x4 : BitVec 4) ≠ 0xF)⟩

theorem EncodedForm.readReg (a : Byte) (n : Nat) : EncodedForm.Statement (.readReg a n) := fun _ _ =>
  ⟨rfl, (by decide : (0x5 : BitVec 4) ≠ 0x0), (by decide : (0x5 : BitVec 4) ≠ 0xF)⟩

theorem EncodedForm.writeReg (a : Byte) (d : List Byte) : EncodedForm.Statement (.writeReg a d) := fun _ _ =>
  ⟨rfl, (by decide : (0x6 : BitVec 4) ≠ 0x0), (by decide : (0x6 : BitVec 4) ≠ 0xF)⟩

theorem EncodedForm.flushTx : EncodedForm.Statement .flushTx := fun _ _ =>
  ⟨rfl, (by decide : (0x7 : BitVec 4) ≠ 0x0), (by decide : (0x7 : BitVec 4) ≠ 0xF)⟩

theorem EncodedForm.flushRx : EncodedForm.Statement .flushRx := fun _ _ =>
  ⟨rfl, (by decide : (0x8 : BitVec 4) ≠ 0x0), (by decide : (0x8 : BitVec 4) ≠ 0xF)⟩

theorem EncodedForm.readPlWid : EncodedForm.Statement .readPlWid := fun _ _ =>
  ⟨rfl, (by decide : (0x9 : BitVec 4) ≠ 0x0), (by decide : (0x9 : BitVec 4) ≠ 0xF)⟩

theorem EncodedForm.readPayload (n : Nat) : EncodedForm.Statement (.readPayload n) := fun _ _ =>
  ⟨rfl, (by decide : (0xA : BitVec 4) ≠ 0x0), (by decide : (0xA : BitVec 4) ≠ 0xF)⟩

theorem EncodedForm.writePayload (d : List Byte) : EncodedForm.Statement (.writePayload d) := fun _ _ =>
  ⟨rfl, (by decide : (0xB : BitVec 4) ≠ 0x0), (by decide : (0xB : BitVec 4) ≠ 0xF)⟩

theorem EncodedForm.ceHigh : EncodedForm.Statement .ceHigh := fun _ _ =>
  ⟨rfl, (by decide : (0xC : BitVec 4) ≠ 0x0), (by decide : (0xC : BitVec 4) ≠ 0xF)⟩

theorem EncodedForm.ceLow : EncodedForm.Statement .ceLow := fun _ _ =>
  ⟨rfl, (by decide : (0xD : BitVec 4) ≠ 0x0), (by decide : (0xD : BitVec 4) ≠ 0xF)⟩

theorem EncodedForm.cePulse : EncodedForm.Statement .cePulse := fun _ _ =>
  ⟨rfl, (by decide : (0xE : BitVec 4) ≠ 0x0), (by decide : (0xE : BitVec 4) ≠ 0xF)⟩

end Sys2Proof.Laws
end

