-- ==== Sys2Proof/Laws/Text.lean ====
section
/-! SUPPORT. What the lexer, the line splitter and the program reader do with text put together from parts. -/

namespace Sys2Proof.Machine

/-- The characters that a word of a line may hold: none that ends a word or the line. -/
def plainChar (c : Char) : Bool :=
  !(c == ';' || c == ' ' || c == '\t' || c == '\r' || c == ',' || c == braceOpen || c == braceClose || c == '\n')

/-- The lexer collects the characters of a word. -/
theorem lexLine_word (w rest acc : List Char) (h : w.all plainChar = true) :
    lexLine acc (w ++ rest) = lexLine (w.reverse ++ acc) rest := by
  induction w generalizing acc with
  | nil => rfl
  | cons c w ih =>
    simp only [List.all_cons, Bool.and_eq_true] at h
    obtain ⟨hc, hw⟩ := h
    simp only [plainChar, Bool.not_eq_true', Bool.or_eq_false_iff, beq_eq_false_iff_ne] at hc
    obtain ⟨⟨⟨⟨⟨⟨⟨h1, h2⟩, h3⟩, h4⟩, h5⟩, h6⟩, h7⟩, -⟩ := hc
    have h8 : ¬ (c = ' ' ∨ c = '\t' ∨ c = '\r') := by simp [h2, h3, h4]
    rw [List.cons_append, lexLine, if_neg h1, if_neg h8, if_neg h5, if_neg h6, if_neg h7, ih _ hw, List.reverse_cons,
      List.append_assoc, List.singleton_append]

/-- What follows a comment sign on a line is not read. -/
theorem lexLine_comment (line comment acc : List Char) :
    lexLine acc (line ++ ';' :: comment) = lexLine acc line := by
  induction line generalizing acc with
  | nil => simp [lexLine]
  | cons c line ih => simp only [List.cons_append, lexLine, ih]

/-- A text's first line ends at its first line end. -/
theorem splitLines_line (line rest acc : List Char) (h : '\n' ∉ line) :
    splitLines acc (line ++ '\n' :: rest) = (acc.reverse ++ line) :: splitLines [] rest := by
  induction line generalizing acc with
  | nil => simp [splitLines]
  | cons c line ih =>
    rw [List.mem_cons, not_or] at h
    rw [List.cons_append, splitLines, if_neg (Ne.symm h.1), ih _ h.2, List.reverse_cons, List.append_assoc,
      List.singleton_append]

/-- A text without a line end is one line. -/
theorem splitLines_last (line acc : List Char) (h : '\n' ∉ line) : splitLines acc line = [acc.reverse ++ line] := by
  induction line generalizing acc with
  | nil => rw [splitLines, List.append_nil]
  | cons c line ih =>
    rw [List.mem_cons, not_or] at h
    rw [splitLines, if_neg (Ne.symm h.1), ih _ h.2, List.reverse_cons, List.append_assoc, List.singleton_append]

/-- A program is read line by line: the tokens of the first line, then the rest. -/
theorem parseProgram_line (p : Params) (line rest : List Char) (h : '\n' ∉ line) :
    parseProgram p (line ++ '\n' :: rest) =
      match lexLine [] line with
      | [] => parseProgram p rest
      | t :: ts => (parseTokens p (t :: ts)).bind fun i => (parseProgram p rest).map (i :: ·) := by
  rw [parseProgram, splitLines_line _ _ _ h, List.reverse_nil, List.nil_append, parseLines]
  rfl

end Sys2Proof.Machine
end

