-- ==== Sys2Proof/Tests/Slice0.lean ====
section
/-! SUPPORT. Tests: the well-formedness smoke, the decoding of written-out words, the vectors of spec 95 as single steps,
and a witness for the hypotheses of every obligation that has some. Expected values come from spec 30 and spec 95. -/

namespace Sys2Proof.Tests

open Sys2Proof.Machine

/-! ### Helpers -/

/-- The defaults of 00 R7 with values for the open parameters: `DUMMY = 0x5A`, `MAXLEN = 8`. -/
def params (minimize : Bool) : Params :=
  { codes := .defaults, dummy := 0x5A, maxLen := 8, minimizeCurrent := minimize,
    timings := { tSettle := 0, tCe := 0, tCsnHigh := 0, tPor := 0 }, regs := .defaults,
    txDs := 0x20, maxRt := 0x10, rxDr := 0x40 }

/-- The state after reset that will receive these bytes on MISO. -/
def at0 (bytes : List Byte) : State :=
  { State.resetWith (params false) with miso := (bytes.map bitsMsbFirst).flatten }

/-- The state with a raw frame open and the next bytes on MISO. -/
def open0 (bytes : List Byte) : State := { at0 bytes with csn := false }

/-- The state with chip-enable at a level, in a pulse variant. -/
def ce0 (minimize : Bool) (ce : Level) : State := { State.resetWith (params minimize) with ce := ce }

/-- What a next state shows; `none` for a stop. -/
def see {α : Type} (f : State → α) : Host.Outcome State Fault Refusal → Option α
  | .next t => some (f t)
  | .fault _ => none
  | .refused _ => none

/-- Why an instruction or a step is refused; `none` if it is not. -/
def why : Host.Outcome State Fault Refusal → Option Refusal
  | .next _ => none
  | .fault _ => none
  | .refused r => some r

/-- The result, the trace and the status register. -/
def view (t : State) : List Result × List Event × Byte := (t.results, t.trace, t.stat)

/-- A result with a status. -/
def withStatus (st : Byte) (d : Option (List Byte)) : Result := { status := some st, data := d }

/-- A result of data alone. -/
def dataOnly (d : List Byte) : Result := { status := none, data := some d }

/-- The empty result. -/
def nothing : Result := { status := none, data := none }

/-! ### Well-formedness (30 R53, 60 R103) -/

theorem test_defaults_wf : WireCodes.defaults.wf = true ∧ (params false).wf = true := by decide

/-- 95 V40: the two register opcodes are equal. -/
theorem test_equal_opcodes_refused : ({ WireCodes.defaults with opWreg := 0b000 }).wf = false := by decide

/-- 95 V41: `CMD_FLUSH_TX = 0x20` has bits 7:5 equal to `OP_WREG`. -/
theorem test_fixed_code_with_write_opcode_refused : ({ WireCodes.defaults with cmdFlushTx := 0x20 }).wf = false := by
  decide

/-- A fixed code with bits 7:5 equal to `OP_RREG`. -/
theorem test_fixed_code_with_read_opcode_refused : ({ WireCodes.defaults with cmdRRxPayload := 0x1F }).wf = false := by
  decide

/-- Two equal fixed codes. -/
theorem test_equal_fixed_codes_refused : ({ WireCodes.defaults with cmdFlushRx := 0xE1 }).wf = false := by decide

/-- 95 V42: `MAXLEN = 4`. -/
theorem test_short_maxlen_refused : ({ params false with maxLen := 4 }).wf = false := by decide

/-- A length of `MAXLEN` is well formed, one above is not (30 R56). -/
theorem test_too_long_refused : (Instr.readReg 0x07 8).wf 8 = true ∧ (Instr.readReg 0x07 9).wf 8 = false ∧
    (Instr.xferN (List.replicate 9 0x00) false).wf 8 = false := by decide

/-! ### Decoding (30 R55, R56, R58) -/

/-- The byte 000 00111 and one data byte. -/
theorem test_decode_w_rreg : decode .defaults (.frame [0b00000111, 0x00]) = .ok (.wRreg 0b00111 1) := rfl

/-- The byte 000 11111 alone. -/
theorem test_decode_w_rreg_top_address : decode .defaults (.frame [0b00011111]) = .ok (.wRreg 0b11111 0) := rfl

/-- The byte 001 10000 and two data bytes. -/
theorem test_decode_w_wreg : decode .defaults (.frame [0b00110000, 0xE7, 0xD3]) = .ok (.wWreg 0b10000 [0xE7, 0xD3]) := rfl

/-- The byte 01100000 and one data byte. -/
theorem test_decode_w_r_rx_pl_wid : decode .defaults (.frame [0b01100000, 0xAA]) = .ok .wRRxPlWid := rfl

/-- The byte 01100001 and three data bytes. -/
theorem test_decode_w_r_rx_payload : decode .defaults (.frame [0b01100001, 0x00, 0x00, 0x00]) = .ok (.wRRxPayload 3) := rfl

/-- The byte 10100000 and its payload. -/
theorem test_decode_w_w_tx_payload : decode .defaults (.frame [0b10100000, 0x01, 0x02]) = .ok (.wWTxPayload [0x01, 0x02]) := rfl

/-- The byte 11100001. -/
theorem test_decode_w_flush_tx : decode .defaults (.frame [0b11100001]) = .ok .wFlushTx := rfl

/-- The byte 11100010. -/
theorem test_decode_w_flush_rx : decode .defaults (.frame [0b11100010]) = .ok .wFlushRx := rfl

/-- Code 0001. -/
theorem test_decode_csn_low : decode .defaults (.request ⟨0b0001, none, none, none, none, none⟩) = .ok .csnLow := rfl

/-- Code 0010. -/
theorem test_decode_csn_high : decode .defaults (.request ⟨0b0010, none, none, none, none, none⟩) = .ok .csnHigh := rfl

/-- Code 0011 with `b`. -/
theorem test_decode_xfer : decode .defaults (.request ⟨0b0011, none, none, none, some 0xA5, none⟩) = .ok (.xfer 0xA5) := rfl

/-- Code 0100 with `D` and `r`. -/
theorem test_decode_xfer_n : decode .defaults (.request ⟨0b0100, none, none, some [0x12, 0x34], none, some true⟩) = .ok (.xferN [0x12, 0x34] true) := rfl

/-- Code 0101 with `a` and `n`. -/
theorem test_decode_read_reg : decode .defaults (.request ⟨0b0101, some 0x27, some 5, none, none, none⟩) = .ok (.readReg 0x27 5) := rfl

/-- Code 0110 with `a` and `D`. -/
theorem test_decode_write_reg : decode .defaults (.request ⟨0b0110, some 0xE5, none, some [0x4C], none, none⟩) = .ok (.writeReg 0xE5 [0x4C]) := rfl

/-- Code 0111. -/
theorem test_decode_flush_tx : decode .defaults (.request ⟨0b0111, none, none, none, none, none⟩) = .ok .flushTx := rfl

/-- Code 1000. -/
theorem test_decode_flush_rx : decode .defaults (.request ⟨0b1000, none, none, none, none, none⟩) = .ok .flushRx := rfl

/-- Code 1001. -/
theorem test_decode_read_pl_wid : decode .defaults (.request ⟨0b1001, none, none, none, none, none⟩) = .ok .readPlWid := rfl

/-- Code 1010 with `n`. -/
theorem test_decode_read_payload : decode .defaults (.request ⟨0b1010, none, some 3, none, none, none⟩) = .ok (.readPayload 3) := rfl

/-- Code 1011 with `D`. -/
theorem test_decode_write_payload : decode .defaults (.request ⟨0b1011, none, none, some [0x01], none, none⟩) = .ok (.writePayload [0x01]) := rfl

/-- Code 1100. -/
theorem test_decode_ce_high : decode .defaults (.request ⟨0b1100, none, none, none, none, none⟩) = .ok .ceHigh := rfl

/-- Code 1101. -/
theorem test_decode_ce_low : decode .defaults (.request ⟨0b1101, none, none, none, none, none⟩) = .ok .ceLow := rfl

/-- Code 1110. -/
theorem test_decode_ce_pulse : decode .defaults (.request ⟨0b1110, none, none, none, none, none⟩) = .ok .cePulse := rfl

/-- Codes 0x0 and 0xF are reserved (30 R60), a field too many or too few is no request (30 R56), and bytes that no wire
command sends decode to nothing (30 R59): the family's NOP, a flush with a data byte, a width read with none. -/
theorem test_decode_rejects :
    decode .defaults (.request ⟨0x0, none, none, none, none, none⟩) = .error .reservedCode ∧
    decode .defaults (.request ⟨0xF, some 0x07, some 1, none, none, none⟩) = .error .reservedCode ∧
    decode .defaults (.request ⟨0x1, some 0x07, none, none, none, none⟩) = .error .malformedRequest ∧
    decode .defaults (.request ⟨0x5, some 0x07, none, none, none, none⟩) = .error .malformedRequest ∧
    decode .defaults (.frame []) = .error .emptyFrame ∧ decode .defaults (.frame [0xFF]) = .error .unknownCommand ∧
    decode .defaults (.frame [0xE1, 0x00]) = .error .wrongFrameLength ∧
    decode .defaults (.frame [0x60]) = .error .wrongFrameLength :=
  ⟨rfl, rfl, rfl, rfl, rfl, rfl, rfl, rfl⟩

/-- 95 section 2.3, the table of command bytes for request addresses. -/
theorem test_command_bytes :
    readCommand (params false) (effAddr 0x07) = 0x07 ∧ readCommand (params false) (effAddr 0x27) = 0x07 ∧
    readCommand (params false) (effAddr 0xFF) = 0x1F ∧ writeCommand (params false) (effAddr 0x10) = 0x30 ∧
    writeCommand (params false) (effAddr 0xE5) = 0x25 ∧ writeCommand (params false) (effAddr 0x1F) = 0x3F ∧
    writeCommand (params false) (effAddr 0xE0) = 0x20 := by decide

/-- A table word is read as a request where its value is a request code, else as a command byte (log entry 4). -/
theorem test_table_words :
    decodeTableWord 4 0x7 = some .flushTx ∧ decodeTableWord 8 0xE1 = some .wFlushTx ∧
    decodeTableWord 8 0x60 = some .wRRxPlWid ∧ decodeTableWord 8 0x20 = some (.wWreg 0 []) ∧
    decodeTableWord 4 0xF = none := by decide

/-- A table word placed at reset is performed by the very next step (log entries 3 and 4). -/
theorem test_fetch_word :
    see (fun t => (t.phase, t.port.length, t.trace.length)) (step (State.reset.withFetchWord 8 0xE1)) = some (.idle, 0, 26) ∧
    see (fun t => (t.phase, t.port.length, t.ce)) (step (State.reset.withFetchWord 4 0xC)) = some (.idle, 0, true) := by
  decide

/-! ### The shift engine (95 section 2.1) -/

/-- The notation of 95: `B(0x07, 0x0E)` written out. -/
theorem test_notation : byteEvents 0x07 0x0E =
    [.sckUp false, .sample false, .sckDown, .sckUp false, .sample false, .sckDown,
     .sckUp false, .sample false, .sckDown, .sckUp false, .sample false, .sckDown,
     .sckUp false, .sample true, .sckDown, .sckUp true, .sample true, .sckDown,
     .sckUp true, .sample true, .sckDown, .sckUp true, .sample false, .sckDown] := by decide

/-- 95 V1. -/
theorem test_xfer_v1 : see view (exec (.xfer 0xA5) (at0 [0x0E])) =
    some ([dataOnly [0x0E]], byteEvents 0xA5 0x0E, 0x00) := by decide

/-- 95 V4: the last sample alone is 1, `MOSI` ends low, the clock low, `CSN` as it was. -/
theorem test_xfer_v4 : see (fun t => (t.results, t.mosi, t.sck, t.csn)) (exec (.xfer 0x80) (at0 [0x01])) =
    some ([dataOnly [0x01]], false, false, true) := by decide

/-- 95 V6. -/
theorem test_xfer_n_v6 : see view (exec (.xferN [0x12, 0x34] false) (at0 [0xFF, 0xFF])) =
    some ([dataOnly [0xFF, 0xFF]], byteEvents 0x12 0xFF ++ byteEvents 0x34 0xFF, 0x00) := by decide

/-- 95 V7, and V12: one byte more than `MAXLEN`. -/
theorem test_xfer_n_v7_v12 :
    see view (exec (.xferN [] true) (at0 [])) = some ([dataOnly []], [], 0x00) ∧
    why (exec (.xferN (List.replicate 9 0x00) false) (at0 [])) = some .tooLong := by decide

/-- 95 V8: two settle points among three read-path bytes. -/
theorem test_settle_points : settlePoints (xferNMicros [0x5A, 0x5A, 0x5A] true) = 2 ∧
    settlePoints (xferNMicros [0x12, 0x34] false) = 0 := by decide

/-- 40 R69: the wait stands before the second byte, none before the first or after the last. -/
theorem test_settle_point_place : outline (xferNMicros [0x11, 0x22] true) =
    [.phase (.data 0 2), .loadSho 0x11, .keep, .phase (.data 1 2), .wait .settle, .loadSho 0x22, .keep, .phase .idle] := by
  decide

/-- 95 V9 and V10. -/
theorem test_csn_low : see (fun t => (t.trace, t.csn)) (exec .csnLow (at0 [])) = some ([.csnDown], false) ∧
    see (fun t => (t.trace, t.csn)) (exec .csnLow (open0 [])) = some ([], false) := by decide

/-- 95 V11, and the release of an open frame. -/
theorem test_csn_high : see (fun t => (t.trace, t.csn)) (exec .csnHigh (at0 [])) = some ([], true) ∧
    see (fun t => (t.trace, t.csn)) (exec .csnHigh (open0 [])) = some ([.csnUp], true) := by decide

/-! ### Chip enable (95 section 2.2) -/

/-- 95 V13 and V14. -/
theorem test_ce_high : see (fun t => (t.trace, t.ce)) (exec .ceHigh (ce0 false false)) = some ([.ceUp], true) ∧
    see (fun t => (t.trace, t.ce)) (exec .ceHigh (ce0 false true)) = some ([], true) := by decide

/-- 95 V15 and V16. -/
theorem test_ce_low : see (fun t => (t.trace, t.ce)) (exec .ceLow (ce0 false true)) = some ([.ceDown], false) ∧
    see (fun t => (t.trace, t.ce)) (exec .ceLow (ce0 false false)) = some ([], false) := by decide

/-- 95 V17 and V18. -/
theorem test_ce_pulse : see (fun t => (t.trace, t.ce)) (exec .cePulse (ce0 false false)) = some ([.ceUp], true) ∧
    see (fun t => (t.trace, t.ce)) (exec .cePulse (ce0 false true)) = some ([.ceDown, .ceUp], true) := by decide

/-- 95 V19 and V20. -/
theorem test_ce_pulse_minimize :
    see (fun t => (t.trace, t.ce)) (exec .cePulse (ce0 true false)) = some ([.ceUp, .ceDown], false) ∧
    see (fun t => (t.trace, t.ce)) (exec .cePulse (ce0 true true)) = some ([.ceDown, .ceUp, .ceDown], false) := by decide

/-! ### The command sequencer and the wire commands (95 section 2.3) -/

/-- 95 V21, with the address of 42 R78's example. -/
theorem test_read_reg_v21 : see view (exec (.readReg 0x27 1) (at0 [0x0E, 0x0E])) =
    some ([withStatus 0x0E (some [0x0E])],
      [.csnDown] ++ byteEvents 0x07 0x0E ++ byteEvents 0x5A 0x0E ++ [.csnUp], 0x0E) := by decide

/-- 95 V23. -/
theorem test_read_reg_v23 : see (fun t => (t.results, t.trace.length)) (exec (.readReg 0x05 0) (at0 [0x0E])) =
    some ([withStatus 0x0E (some [])], 26) := by decide

/-- 95 V24. -/
theorem test_write_reg_v24 : see view (exec (.writeReg 0x00 [0x0E]) (at0 [0x0E, 0x00])) =
    some ([withStatus 0x0E none],
      [.csnDown] ++ byteEvents 0x20 0x0E ++ byteEvents 0x0E 0x00 ++ [.csnUp], 0x0E) := by decide

/-- 95 V26: the status is that of the command byte. -/
theorem test_write_reg_v26 : see (fun t => (t.results, t.stat, t.shi)) (exec (.writeReg 0x07 [0x70]) (at0 [0x7E, 0x0E])) =
    some ([withStatus 0x7E none], 0x7E, 0x0E) := by decide

/-- 95 V27. -/
theorem test_flush_tx_v27 : see view (exec .flushTx (at0 [0x0E])) =
    some ([withStatus 0x0E none], [.csnDown] ++ byteEvents 0xE1 0x0E ++ [.csnUp], 0x0E) := by decide

/-- 95 V28. -/
theorem test_flush_rx_v28 : see view (exec .flushRx (at0 [0x0E])) =
    some ([withStatus 0x0E none], [.csnDown] ++ byteEvents 0xE2 0x0E ++ [.csnUp], 0x0E) := by decide

/-- 95 V29. -/
theorem test_read_pl_wid_v29 : see view (exec .readPlWid (at0 [0x40, 0x05])) =
    some ([withStatus 0x40 (some [0x05])],
      [.csnDown] ++ byteEvents 0x60 0x40 ++ byteEvents 0x5A 0x05 ++ [.csnUp], 0x40) := by decide

/-- 95 V31. -/
theorem test_read_payload_v31 :
    see (fun t => (t.results, t.trace.length)) (exec (.readPayload 3) (at0 [0x40, 0x11, 0x22, 0x33])) =
      some ([withStatus 0x40 (some [0x11, 0x22, 0x33])], 98) ∧
    settlePoints (frameMicros 0x61 [0x5A, 0x5A, 0x5A] true) = 2 := by decide +kernel

/-- 95 V33: the bytes on MOSI, `0xA0 0x01 0x02 0x03`, bit 7 first. -/
theorem test_write_payload_v33 :
    see (fun t => (t.results, mosiLevels t.trace)) (exec (.writePayload [0x01, 0x02, 0x03]) (at0 [0x0E, 0x00, 0x00, 0x00])) =
      some ([withStatus 0x0E none],
        [true, false, true, false, false, false, false, false, false, false, false, false, false, false, false, true,
         false, false, false, false, false, false, true, false, false, false, false, false, false, false, true, true]) := by
  decide +kernel

/-- 95 V34. -/
theorem test_write_payload_v34 : see (fun t => (t.results, t.trace.length)) (exec (.writePayload []) (at0 [0x0E])) =
    some ([withStatus 0x0E none], 26) := by decide

/-- 95 V35 to V38: the refusals, `TooLong` before `OpenFrame`. -/
theorem test_refusals : why (exec (.readReg 0x07 1) (open0 [])) = some .openFrame ∧
    why (exec .flushTx (open0 [])) = some .openFrame ∧ why (exec (.readReg 0x07 9) (at0 [])) = some .tooLong ∧
    why (exec (.writePayload (List.replicate 9 0x00)) (open0 [])) = some .tooLong := by decide

/-- The wire commands send the frames of V21, V24, V27, V28, V29, V31 and V33. -/
theorem test_wire_frames :
    see (fun t => (t.results, t.trace.length)) (exec (.wRreg 0x07 1) (at0 [0x0E, 0x0E])) =
      some ([withStatus 0x0E (some [0x0E])], 50) ∧
    see (fun t => (t.results, t.trace.length)) (exec (.wWreg 0x00 [0x0E]) (at0 [0x0E, 0x00])) =
      some ([withStatus 0x0E none], 50) ∧
    see view (exec .wFlushTx (at0 [0x0E])) =
      some ([withStatus 0x0E none], [.csnDown] ++ byteEvents 0xE1 0x0E ++ [.csnUp], 0x0E) ∧
    see view (exec .wFlushRx (at0 [0x0E])) =
      some ([withStatus 0x0E none], [.csnDown] ++ byteEvents 0xE2 0x0E ++ [.csnUp], 0x0E) := by decide

theorem test_wire_payload_frames :
    see view (exec .wRRxPlWid (at0 [0x40, 0x05])) = some ([withStatus 0x40 (some [0x05])],
      [.csnDown] ++ byteEvents 0x60 0x40 ++ byteEvents 0x5A 0x05 ++ [.csnUp], 0x40) ∧
    see (fun t => (t.results, t.trace.length)) (exec (.wRRxPayload 3) (at0 [0x40, 0x11, 0x22, 0x33])) =
      some ([withStatus 0x40 (some [0x11, 0x22, 0x33])], 98) ∧
    see (fun t => (t.results, t.trace.length)) (exec (.wWTxPayload [0x01]) (at0 [0x0E, 0x00])) =
      some ([withStatus 0x0E none], 50) := by decide +kernel

/-! ### The step (95 V39, V40, V42; 70 R115) -/

theorem test_step_runs_the_oldest_item : see (fun t => (t.trace, t.port.length))
    (step { at0 [] with port := [.request (.bare 0x1), .request (.bare 0x2)] }) = some ([.csnDown], 1) := by decide

theorem test_step_refuses :
    why (step { at0 [] with port := [.request (.bare 0xF)] }) = some .reservedCode ∧
    why (step { at0 [] with port := [.frame [0xFF]] }) = some .noWireCommand ∧
    why (step { at0 [] with
      params := { params false with codes := { WireCodes.defaults with opWreg := 0b000 } }
      port := [.request (.bare 0xC)] }) = some .badConfig ∧
    why (step { at0 [] with params := { params false with maxLen := 4 }, port := [.request (.bare 0x0)] }) =
      some .badConfig := by decide

theorem test_step_waits : step State.reset = .next State.reset := rfl

/-- The monitor of the invariant refuses a chip-select edge inside a word, and a rising edge with the clock high. -/
theorem test_monitor_refuses :
    Monitor.start.read [.csnDown, .sckUp true, .sample true, .sckDown, .csnUp] = none ∧
    Monitor.start.read [.sckUp true, .sckUp true] = none ∧ Monitor.start.read [.sample true] = none ∧
    Monitor.start.read [.csnDown, .csnDown] = none := by decide

/-! ### The boundary (95 sections 1 and 2.4) -/

/-- 95 E1 and the classification table. -/
theorem test_classify :
    [0x20, 0x10, 0x30, 0x00, 0x0E, 0x1E, 0x50, 0x80].map (classify (params false)) =
      [.success, .failed, .success, .failedRetryInProgress, .failedRetryInProgress, .failed, .failed,
       .failedRetryInProgress] := by decide

/-- 95 E3: the byte that `TRANSMIT` writes to the status register. -/
theorem test_clear_byte : clearStatus (params false) ((params false).txDs ||| (params false).maxRt) =
    .writeReg 0x07 [0x30] := by decide

/-- The inputs of 95 P5. -/
def client (m : Mode) (p : Power) : Client :=
  { mode := m, power := p, crc := .off, vAa := 0x3F, vFeat := 0x00, vDynpd := 0x00, vSize := 0x20, channel := 0x4C,
    vRf := 0x07, tx := #v[0xE7, 0xE7, 0xE7, 0xE7, 0xE7], p1 := #v[0xC2, 0xC2, 0xC2, 0xC2, 0xC2] }

/-- 95 section 2.4, the `cfg` bytes. -/
theorem test_cfg : cfg (client .tx .off) .off = 0x00 ∧ cfg (client .rx .off) .off = 0x01 ∧
    cfg (client .tx .off) .on = 0x02 ∧ cfg (client .rx .off) .on = 0x03 ∧
    cfg { client .rx .off with crc := .oneByte } .on = 0x0B ∧
    cfg { client .tx .off with crc := .twoBytes } .on = 0x0E := by decide

/-- 95 section 2.4, the power transitions. -/
theorem test_power :
    powerUpRequests (params false) (client .rx .off) = [.writeReg 0x00 [0x03], .ceHigh] ∧
    powerUpRequests (params false) (client .tx .on) = [] ∧
    powerDownRequests (params false) (client .rx .on) = [.ceLow, .writeReg 0x00 [0x01]] ∧
    powerDownRequests (params false) (client .tx .off) = [] := by decide

/-- 95 P5, rows 9, 13, 17 and 20 of the frames. -/
theorem test_start_requests :
    let l := startRequests (params false) (startContext .rx (client .tx .on).atStart)
    l.length = 20 ∧ l[8]? = some (.writeReg 0x03 [0x03]) ∧ l[12]? = some (.writeReg 0x05 [0x4C]) ∧
    l[16]? = some (.writeReg 0x0B [0x01, 0x02, 0x03, 0x04, 0x01]) ∧ l[19]? = some (.writeReg 0x07 [0x70]) := by decide

/-- 30 R62: a request in the spec's text, with a label, a comment and a byte list. -/
theorem test_text : parseProgram (params false)
    ("READ_REG STATUS, 1 ; status\n\nXFER 0xa5\nCE_PULSE".toList) = some [.readReg 0x07 1, .xfer 0xA5, .cePulse] ∧
    parseProgram (params false) ("XFER".toList) = none := by decide

/-- 30 R62, R63: a byte list between its two signs, and a pseudo-request. -/
theorem test_text_list : parseProgram (params false)
    ("WRITE_REG 0x10, ".toList ++ [braceOpen] ++ "0xE7, 0xD3".toList ++ [braceClose]) =
      some [.writeReg 0x10 [0xE7, 0xD3]] ∧
    parseProgram (params false) ("READ_STATUS".toList) = some [.readReg 0x07 1] := by decide

/-! ### Witnesses: the hypotheses of each obligation hold together somewhere -/

/-- A state inside a transfer. -/
def busy : State := { at0 [] with phase := .data 0 1 }

/-- A state whose parameter record fails its check. -/
def badConfig : State := { at0 [] with params := { params false with maxLen := 4 } }

theorem witness_DecodeOfEncodeIsTheInstruction :
    WireCodes.defaults.wf = true := by decide

theorem witness_EncodeOfDecodedRequestIsTheRequest :
    decode .defaults (.request ⟨0x5, some 0xFF, some 5, none, none, none⟩) = .ok (.readReg 0xFF 5) := rfl

theorem witness_DecodedFrameIsTheCommandsFrame :
    decode .defaults (.frame [0x3F, 0x01]) = .ok (.wWreg 0x1F [0x01]) ∧
    (Instr.wWreg 0x1F [0x01]).returnsData = false := ⟨rfl, rfl⟩

theorem witness_RequestCodesDecode :
    (Request.bare 0x0).code = 0x0 ∧ (Request.bare 0xF).code = 0xF := by decide

theorem witness_CommandBytesAreDistinct :
    WireCodes.defaults.wf = true ∧ (at0 []).phase = .idle ∧
    ({ WireCodes.defaults with opWreg := 0b000 }).wf = false := by decide

theorem witness_StepRunsTheDecodedInstruction :
    { at0 [] with port := [.frame [0xE1]] }.port = .frame [0xE1] :: [] ∧
    decode (at0 []).params.codes (.frame [0xE1]) = .ok .wFlushTx := ⟨rfl, rfl⟩

theorem witness_StepWithNoRequestWaits :
    (open0 []).port = [] := rfl

theorem witness_ReservedCodesAreRefused :
    (at0 []).phase = .idle ∧ { at0 [] with port := [.request (.bare 0xF)] }.port = .request (.bare 0xF) :: [] ∧
    (Request.bare 0xF).code = 0xF ∧ (at0 []).params.wf = true ∧ badConfig.phase = .idle ∧ badConfig.params.wf = false := by decide

theorem witness_OtherItemsAreRefusedByName :
    (at0 []).phase = .idle ∧ (at0 []).params.wf = true ∧
    { at0 [] with port := [.frame [0x60]] }.port = .frame [0x60] :: [] ∧
    decode (at0 []).params.codes (.frame [0x60]) = .error .wrongFrameLength :=
  ⟨rfl, by decide, rfl, rfl⟩

theorem witness_EveryRequestIsAcceptedAfterReset :
    (params false).wf = true ∧ (Instr.readPayload 8).wf (params false).maxLen = true := by decide

theorem witness_CompletesExactlyWhenAccepted :
    (at0 []).phase = .idle ∧ (at0 []).params.wf = true ∧
    (Instr.writePayload (List.replicate 8 0x00)).wf (at0 []).params.maxLen = true ∧ (at0 []).csn = true := by decide

theorem witness_RefusalReasonsInOrder :
    badConfig.phase = .idle ∧ badConfig.params.wf = false ∧ (open0 []).phase = .idle ∧
    (open0 []).params.wf = true ∧ (Instr.readReg 0x07 9).wf (open0 []).params.maxLen = false ∧
    (Instr.readReg 0x07 8).wf (open0 []).params.maxLen = true ∧ (Instr.readReg 0x07 8).sequenced = true ∧
    (open0 []).csn = false := by decide

theorem witness_NothingIsPerformedOutsideIdle :
    busy.phase ≠ .idle := by decide

theorem witness_XferTransfersOneByte :
    (open0 []).ready := by decide

theorem witness_BytesGoMostSignificantBitFirst :
    (at0 []).ready ∧ (Instr.wRreg 0x1F 8).wf (at0 []).params.maxLen = true ∧ (at0 []).csn = true := by decide

theorem witness_XferResultIgnoresTheByteSent :
    (at0 [0x0E]).ready := by decide

theorem witness_XferNTransfersTheBytes :
    (open0 []).ready ∧ (List.replicate 8 (0x5A : Byte)).length ≤ (open0 []).params.maxLen ∧
    (open0 []).params.maxLen < (List.replicate 9 (0x5A : Byte)).length ∧ busy.phase ≠ .idle := by decide

theorem witness_XferNIsXferByteByByte :
    (at0 []).ready ∧ (List.replicate 7 (0x5A : Byte)).length + 1 ≤ (at0 []).params.maxLen := by decide

theorem witness_CsnLowAssertsChipSelect :
    (at0 []).phase = .idle ∧ (at0 []).params.wf = true ∧ busy.phase ≠ .idle := by decide

theorem witness_CsnHighReleasesChipSelect :
    (open0 []).phase = .idle ∧ (open0 []).params.wf = true ∧ busy.phase ≠ .idle := by decide

theorem witness_CeHighAndCeLowDriveChipEnable :
    (ce0 false true).phase = .idle ∧ (ce0 false true).params.wf = true ∧ busy.phase ≠ .idle := by decide

theorem witness_CePulseRaisesChipEnableOnce :
    (ce0 true true).phase = .idle ∧ (ce0 true true).params.wf = true ∧ busy.phase ≠ .idle := by decide

theorem witness_ReadRegReturnsStatusAndData :
    (at0 []).ready ∧ (at0 []).csn = true ∧ 8 ≤ (at0 []).params.maxLen ∧ (open0 []).phase = .idle ∧
    (open0 []).params.wf = true ∧ (open0 []).params.maxLen < 9 ∧ (open0 []).csn = false ∧ busy.phase ≠ .idle := by decide

theorem witness_ReadPayloadReturnsStatusAndData :
    (at0 []).ready ∧ (at0 []).csn = true ∧ 8 ≤ (at0 []).params.maxLen ∧ (open0 []).phase = .idle ∧
    (open0 []).params.wf = true ∧ (open0 []).params.maxLen < 9 ∧ (open0 []).csn = false ∧ busy.phase ≠ .idle := by decide

theorem witness_WriteRegSendsTheBytes :
    (at0 []).ready ∧ (at0 []).csn = true ∧ (List.replicate 8 (0x5A : Byte)).length ≤ (at0 []).params.maxLen ∧
    (open0 []).phase = .idle ∧ (open0 []).params.wf = true ∧
    (open0 []).params.maxLen < (List.replicate 9 (0x5A : Byte)).length ∧ (open0 []).csn = false ∧ busy.phase ≠ .idle := by decide

theorem witness_WritePayloadSendsTheBytes :
    (at0 []).ready ∧ (at0 []).csn = true ∧ (List.replicate 8 (0x5A : Byte)).length ≤ (at0 []).params.maxLen ∧
    (open0 []).phase = .idle ∧ (open0 []).params.wf = true ∧
    (open0 []).params.maxLen < (List.replicate 9 (0x5A : Byte)).length ∧ (open0 []).csn = false ∧ busy.phase ≠ .idle := by decide

theorem witness_FlushesSendTheCommandByteAlone :
    (at0 []).ready ∧ (at0 []).csn = true ∧ (open0 []).phase = .idle ∧ (open0 []).params.wf = true ∧
    0 ≤ (open0 []).params.maxLen ∧ (open0 []).csn = false ∧ busy.phase ≠ .idle := by decide

theorem witness_ReadPlWidReturnsOneByte :
    (at0 []).ready ∧ (at0 []).csn = true ∧ (open0 []).phase = .idle ∧ (open0 []).params.wf = true ∧
    0 ≤ (open0 []).params.maxLen ∧ (open0 []).csn = false ∧ busy.phase ≠ .idle := by decide

theorem witness_WireCommandsPerformTheirFrame :
    (at0 []).ready ∧ (at0 []).csn = true ∧ 8 ≤ (at0 []).params.maxLen ∧
    (List.replicate 8 (0x5A : Byte)).length ≤ (at0 []).params.maxLen := by decide

theorem witness_FrameHasTwentySixEventsAndMore :
    (at0 []).ready ∧ (at0 []).csn = true ∧ Instr.readPlWid.sequenced = true ∧
    Instr.readPlWid.wf (at0 []).params.maxLen = true := by decide

theorem witness_StatusIsTheCommandBytesAnswer :
    (at0 []).ready ∧ (at0 []).csn = true ∧ (Instr.writeReg 0x07 [0x70]).sequenced = true ∧
    (Instr.writeReg 0x07 [0x70]).wf (at0 []).params.maxLen = true := by decide

theorem witness_RawRequestsKeepStat :
    (Instr.xfer 0xFF).sequenced = false ∧ ∃ t, exec (.xfer 0xFF) (at0 [0x0E]) = .next t := ⟨rfl, _, rfl⟩

theorem witness_ChipSelectBetweenRequests :
    (∃ t, exec .flushTx (at0 [0x0E]) = .next t) ∧ Instr.flushTx.sequenced = true ∧
    (∃ t, exec .csnLow (at0 []) = .next t) ∧ (∃ t, exec .csnHigh (open0 []) = .next t) ∧
    (∃ t, exec .ceHigh (open0 []) = .next t) ∧ Instr.ceHigh.sequenced = false ∧ Instr.ceHigh ≠ .csnLow ∧
    Instr.ceHigh ≠ .csnHigh :=
  ⟨⟨_, rfl⟩, rfl, ⟨_, rfl⟩, ⟨_, rfl⟩, ⟨_, rfl⟩, rfl, by decide, by decide⟩

theorem witness_ResultShapes :
    ∃ t, exec .readPlWid (at0 [0x40, 0x05]) = .next t := ⟨_, rfl⟩

theorem witness_ChipEnableIsSeparateFromTheBus :
    (∃ t, exec (.xfer 0xA5) (ce0 false true) = .next t) ∧ (Instr.xfer 0xA5).chipEnable = false ∧
    (∃ t, exec .cePulse (open0 []) = .next t) ∧ Instr.cePulse.chipEnable = true :=
  ⟨⟨_, rfl⟩, rfl, ⟨_, rfl⟩, rfl⟩

theorem witness_RawFramingEqualsSequencedFraming :
    (at0 []).ready ∧ (at0 []).csn = true ∧ 8 ≤ (at0 []).params.maxLen := by decide

theorem witness_StepKeepsTheInvariant :
    Inv { at0 [] with port := [.request (.bare 0x1)] } ∧
    ∃ t, step { at0 [] with port := [.request (.bare 0x1)] } = .next t := ⟨⟨rfl, rfl, rfl⟩, _, rfl⟩

theorem witness_StepKeepsParametersAndTakesOneItem :
    ∃ t, step { at0 [] with port := [.request (.bare 0xE), .frame [0xE1]] } = .next t := ⟨_, rfl⟩

theorem witness_TraceAndResultsOnlyGrow :
    ∃ t, exec (.xferN [0x12] false) (at0 [0xFF]) = .next t := ⟨_, rfl⟩

theorem witness_EverySampleIsInTheTrace :
    ∃ t, exec (.readReg 0x07 1) (at0 [0x0E]) = .next t := ⟨_, rfl⟩

theorem witness_OutputsDoNotDependOnMiso :
    ∃ t, exec (.writeReg 0x10 [0xE7]) (at0 [0xFF, 0x00]) = .next t := ⟨_, rfl⟩

theorem witness_EveryRunKeepsALegalBusTrace :
    Reachable { State.resetWith (params false) with port := [.request (.bare 0x1)], miso := [] } := .start _ _ _

theorem witness_ClassifyReadsTwoStatusBits :
    (params false).txDs = 0x20 ∧ (params false).maxRt = 0x10 := by decide

theorem witness_TransmitWritesPulsesReadsAndClears :
    (at0 []).ready ∧ (at0 []).csn = true ∧
    (List.replicate 8 (0x5A : Byte)).length ≤ (at0 []).params.maxLen ∧ (at0 []).params.txDs = 0x20 ∧
    (at0 []).params.maxRt = 0x10 := by decide

theorem witness_RetransmitPulsesReadsAndClears :
    (at0 [0x0E]).ready ∧ (at0 [0x0E]).csn = true := by decide

theorem witness_CheckAckAndDataReadyOnlyRead :
    (at0 [0x2E]).ready ∧ (at0 [0x2E]).csn = true := by decide

theorem witness_GetPayloadReadsAtMostMaxSize :
    (at0 []).ready ∧ (at0 []).csn = true ∧ 8 ≤ (at0 []).params.maxLen ∧
    8 ≤ (List.replicate 8 (0x00 : Byte)).length := by decide

theorem witness_PowerTransitionsAreNoOpsInTheTargetState :
    (client .rx .on).power = .on ∧ (client .rx .off).power = .off ∧ (at0 []).ready ∧ (at0 []).csn = true := by decide

theorem witness_StartPushesEveryRegister :
    (at0 []).ready ∧ (at0 []).csn = true ∧ Mode.tx ≠ .rx := by decide

theorem witness_ProgramTextReadsBack :
    (∀ i ∈ [Instr.xferN [0x5A, 0xA5] true, .readReg 0xFF 0, .cePulse], i.isRequest = true) ∧
    '\n' ∉ "XFER 0x00 ".toList ∧ '\n' ∉ " a comment".toList ∧ ("FEATURE", RegName.feature) ∈ regLabels := by decide

theorem witness_WrittenRequestsReadBack :
    requestTokens .cePulse = some [mnemonicWord "CE_PULSE"] := rfl

end Sys2Proof.Tests
end

section
/-! SUPPORT. Samples and the bus trace (spec 00 R11): each micro-step takes from the front of the MISO list exactly the
levels it appends to the trace. -/

namespace Sys2Proof.Machine

@[simp] theorem sampledLevels_append (es fs : List Event) :
    sampledLevels (es ++ fs) = sampledLevels es ++ sampledLevels fs :=
  List.filterMap_append

/-- From `s` to `t` the block takes `k` levels from the front of the MISO list and records as many samples (00 R11; log
entry 6). -/
structure TakesLevels (k : Nat) (s t : State) : Prop where
  samples : t.samples = s.samples + k
  miso : t.miso = s.miso.drop k
  recorded : (sampledLevels t.trace).length = (sampledLevels s.trace).length + k

theorem TakesLevels.refl (s : State) : TakesLevels 0 s s := ⟨rfl, rfl, rfl⟩

theorem TakesLevels.trans {j k : Nat} {s t u : State} (h : TakesLevels j s t) (g : TakesLevels k t u) :
    TakesLevels (j + k) s u where
  samples := by rw [g.samples, h.samples, Nat.add_assoc]
  miso := by rw [g.miso, h.miso, List.drop_drop]
  recorded := by rw [g.recorded, h.recorded, Nat.add_assoc]

/-- A sample takes one level and records it. -/
theorem takesLevels_sampleShift (s : State) : TakesLevels 1 s (sampleShift s) where
  samples := rfl
  miso := List.drop_one.symm
  recorded := by rw [sampleShift_trace, sampledLevels_append, List.length_append]; rfl

/-- Events without a sample take no level. -/
theorem TakesLevels.of_no_sample {s t : State} {es : List Event} (hsamples : t.samples = s.samples)
    (hmiso : t.miso = s.miso) (htrace : t.trace = s.trace ++ es) (hes : sampledLevels es = []) : TakesLevels 0 s t :=
  ⟨hsamples, hmiso, by rw [htrace, sampledLevels_append, hes, List.append_nil, Nat.add_zero]⟩

/-- Driving a line takes no level: the events it records are edges. -/
theorem takesLevels_drive (l : Line) (b : Level) (s : State) : TakesLevels 0 s (drive l b s) := by
  cases l with
  | sck => exact .of_no_sample (driveSck_samples b s) (driveSck_miso b s) (driveSck_trace b s) (by
      cases b <;> split <;> rfl)
  | mosi => exact ⟨rfl, rfl, rfl⟩
  | csn => exact .of_no_sample (driveCsn_samples b s) (driveCsn_miso b s) (driveCsn_trace b s) (by
      cases b <;> split <;> rfl)
  | ce => exact .of_no_sample (driveCe_samples b s) (driveCe_miso b s) (driveCe_trace b s) (by
      cases b <;> split <;> rfl)

/-- One micro-step takes as many levels as it records samples: one for `sampleShift`, else none. -/
theorem Micro.run_takesLevels (m : Micro) (x : Run) : ∃ k, TakesLevels k x.st (m.run x).st := by
  cases m with
  | sampleShift => exact ⟨1, takesLevels_sampleShift x.st⟩
  | drive l b => exact ⟨0, takesLevels_drive l b x.st⟩
  | phase | loadSho | clearShi | setBit | driveBit | captureStat | keep | wait => exact ⟨0, rfl, rfl, rfl⟩

/-- Micro-steps take as many levels as they record samples. -/
theorem runMicros_takesLevels (ms : List Micro) (x : Run) : ∃ k, TakesLevels k x.st (runMicros ms x).st := by
  induction ms generalizing x with
  | nil => exact ⟨0, .refl x.st⟩
  | cons m ms ih =>
    obtain ⟨j, hj⟩ := m.run_takesLevels x
    obtain ⟨k, hk⟩ := ih (m.run x)
    exact ⟨j + k, hj.trans hk⟩

/-- An instruction that completes takes as many levels as it records samples. -/
theorem exec_takesLevels {i : Instr} {s t : State} (h : exec i s = .next t) : ∃ k, TakesLevels k s t := by
  obtain ⟨-, rfl⟩ := exec_next h
  obtain ⟨k, hsamples, hmiso, hrecorded⟩ := runMicros_takesLevels (instrMicros s i) { st := s, buf := [] }
  exact ⟨k, hsamples, hmiso, hrecorded⟩

/-- Settles O48, by induction on the instruction's micro-steps: each takes from the front of the MISO list the levels it
records. -/
theorem everySampleIsInTheTrace : Obligations.EverySampleIsInTheTrace := by
  intro i s t h
  obtain ⟨k, hsamples, hmiso, hrecorded⟩ := exec_takesLevels h
  constructor
  · omega
  · rw [hmiso, hsamples, Nat.add_sub_cancel_left]

end Sys2Proof.Machine
end

section
/-! SUPPORT. The shape of an instruction's micro-steps: which instructions are one frame, and how they end. -/

namespace Sys2Proof.Machine

/-- Every sequenced command is one frame (42 R75). -/
theorem instrMicros_of_sequenced (s : State) {i : Instr} (h : i.sequenced = true) :
    ∃ c d r, instrMicros s i = frameMicros c d r := by
  cases i with
  | wRreg | wWreg | wRRxPlWid | wRRxPayload | wWTxPayload | wFlushTx | wFlushRx
  | readReg | writeReg | flushTx | flushRx | readPlWid | readPayload | writePayload => exact ⟨_, _, _, rfl⟩
  | csnLow | csnHigh | xfer | xferN | ceHigh | ceLow | cePulse => exact Bool.noConfusion h

/-- Case split on an instruction: a sequenced command, or one of the seven raw and chip-enable requests (30 R55, R58). -/
theorem cases_sequenced {motive : Instr → Prop} (i : Instr) (framed : ∀ i, i.sequenced = true → motive i)
    (csnLow : motive .csnLow) (csnHigh : motive .csnHigh) (xfer : ∀ b, motive (.xfer b))
    (xferN : ∀ d r, motive (.xferN d r)) (ceHigh : motive .ceHigh) (ceLow : motive .ceLow)
    (cePulse : motive .cePulse) : motive i := by
  cases i with
  | wRreg | wWreg | wRRxPlWid | wRRxPayload | wWTxPayload | wFlushTx | wFlushRx
  | readReg | writeReg | flushTx | flushRx | readPlWid | readPayload | writePayload => exact framed _ rfl
  | csnLow => exact csnLow
  | csnHigh => exact csnHigh
  | xfer b => exact xfer b
  | xferN d r => exact xferN d r
  | ceHigh => exact ceHigh
  | ceLow => exact ceLow
  | cePulse => exact cePulse

theorem frameMicros_ends_idle (c : Byte) (d : List Byte) (r : Level) :
    ∃ ms, frameMicros c d r = ms ++ [.phase .idle] :=
  ⟨_, (List.append_assoc _ ([.phase .release, .drive .csn true] : List Micro) _).symm⟩

/-- An instruction's last micro-step is `PHASE <- IDLE`, but for `XFER_N` of no byte, which has no micro-step (10 R20;
log entry 12). -/
theorem instrMicros_ends_idle (s : State) (i : Instr) :
    instrMicros s i = [] ∨ ∃ ms, instrMicros s i = ms ++ [.phase .idle] := by
  cases i using cases_sequenced with
  | framed i hseq =>
    obtain ⟨c, d, r, hframe⟩ := instrMicros_of_sequenced s hseq
    exact .inr (hframe ▸ frameMicros_ends_idle c d r)
  | csnLow => exact .inr ⟨[.phase .select, .drive .csn false], rfl⟩
  | csnHigh => exact .inr ⟨[.phase .release, .drive .csn true], rfl⟩
  | xfer b => exact .inr ⟨[.phase (.data 0 1)] ++ byteMicros b ++ [.keep], rfl⟩
  | xferN d r =>
    cases d with
    | nil => exact .inl rfl
    | cons b d => exact .inr ⟨dataMicros r (b :: d), rfl⟩
  | ceHigh => exact .inr ⟨[.phase .enable, .drive .ce true], rfl⟩
  | ceLow => exact .inr ⟨[.phase .enable, .drive .ce false], rfl⟩
  | cePulse => exact .inr ⟨_, rfl⟩

/-- An accepted instruction ends in `IDLE`, where it began. -/
theorem runMicros_instrMicros_phase (s : State) (i : Instr) {x : Run} (h : x.st.phase = .idle) :
    (runMicros (instrMicros s i) x).st.phase = .idle := by
  obtain hnil | ⟨ms, hms⟩ := instrMicros_ends_idle s i
  · rw [hnil]; exact h
  · rw [hms, runMicros_append]; rfl

/-- The two ways a step answers a next state: an empty port waits, and an item of the port is performed. -/
theorem step_next {s t : State} (h : step s = .next t) :
    (s.port = [] ∧ t = s) ∨
      ∃ item rest i, s.port = item :: rest ∧ exec i { s with port := rest } = .next t := by
  unfold step at h
  split at h
  case h_1 hport => exact .inl ⟨hport, by cases h; rfl⟩
  case h_2 item rest hport =>
    split at h
    case h_1 i _ => exact .inr ⟨item, rest, i, hport, h⟩
    case h_2 => cases h

end Sys2Proof.Machine
end

section
/-! SUPPORT. The invariant (spec 10 R20, R34; 42 R75): every part of a request takes the block from a state between two
bytes, with a legal trace behind it, to another such state. -/

namespace Sys2Proof.Machine

/-- The invariant without its phase: the clock is low and the trace is legal from reset and leaves the lines where the
state holds them, after whole bytes. -/
def BetweenBytes (s : State) : Prop :=
  s.sck = false ∧ Monitor.start.read s.trace = some { sck := s.sck, csn := s.csn, ce := s.ce, bits := 0 }

theorem inv_iff {s : State} : Inv s ↔ s.phase = .idle ∧ BetweenBytes s := Iff.rfl

/-- Events that the monitor reads from the lines of `s` to the lines of `t` lead from between two bytes to between two
bytes. -/
theorem BetweenBytes.append {s t : State} {es : List Event} (h : BetweenBytes s) (hsck : t.sck = false)
    (htrace : t.trace = s.trace ++ es)
    (hread : Monitor.read { sck := false, csn := s.csn, ce := s.ce, bits := 0 } es =
      some { sck := false, csn := t.csn, ce := t.ce, bits := 0 }) : BetweenBytes t := by
  obtain ⟨hs, hlegal⟩ := h
  refine ⟨hsck, ?_⟩
  rw [htrace, Monitor.read_append, hlegal, hs, hsck]
  exact hread

theorem BetweenBytes.driveCsn {s : State} (h : BetweenBytes s) (b : Level) : BetweenBytes (driveCsn b s) := by
  refine h.append (by simpa using h.1) (driveCsn_trace b s) ?_
  simp only [driveCsn_csn, driveCsn_ce]
  cases s.csn <;> cases b <;> rfl

theorem BetweenBytes.driveCe {s : State} (h : BetweenBytes s) (b : Level) : BetweenBytes (driveCe b s) := by
  refine h.append (by simpa using h.1) (driveCe_trace b s) ?_
  simp only [driveCe_csn, driveCe_ce]
  cases s.ce <;> cases b <;> rfl

/-- A transfer appends the events of its bytes, for no byte too. -/
theorem afterBytes_trace (s : State) (os : List Byte) :
    (s.afterBytes os).trace = s.trace ++ bytesEvents os (s.inBytes 0 os.length) := by
  cases h : os.getLast? with
  | none => rw [List.getLast?_eq_none_iff.mp h]; exact (List.append_nil _).symm
  | some o => rw [afterBytes_of_getLast s h]

theorem BetweenBytes.afterBytes {s : State} (h : BetweenBytes s) (os : List Byte) : BetweenBytes (s.afterBytes os) := by
  refine h.append ((afterBytes_sck s os).trans h.1) (afterBytes_trace s os) ?_
  rw [afterBytes_csn, afterBytes_ce]
  exact Monitor.read_bytesEvents _ os _ rfl rfl

/-- Micro-steps that lead from between two bytes to between two bytes. -/
def KeepsBetweenBytes (ms : List Micro) : Prop :=
  ∀ x : Run, BetweenBytes x.st → BetweenBytes (runMicros ms x).st

theorem KeepsBetweenBytes.append {l m : List Micro} (hl : KeepsBetweenBytes l) (hm : KeepsBetweenBytes m) :
    KeepsBetweenBytes (l ++ m) := fun x hx => by
  rw [runMicros_append]; exact hm _ (hl x hx)

/-- The micro-steps of a request that are no part of the transfer of a byte. -/
def Micro.outsideByte : Micro → Bool
  | .phase _ | .drive .csn _ | .drive .ce _ | .captureStat | .keep | .wait _ => true
  | .drive .sck _ | .drive .mosi _ | .loadSho _ | .clearShi | .setBit _ | .driveBit | .sampleShift => false

theorem Micro.run_betweenBytes {m : Micro} (hm : m.outsideByte = true) {x : Run} (h : BetweenBytes x.st) :
    BetweenBytes (m.run x).st := by
  cases m with
  | drive l b =>
    cases l with
    | csn => exact h.driveCsn b
    | ce => exact h.driveCe b
    | sck | mosi => exact Bool.noConfusion hm
  | phase | captureStat | keep | wait => exact h
  | loadSho | clearShi | setBit | driveBit | sampleShift => exact Bool.noConfusion hm

theorem keepsBetweenBytes_of_outsideByte {ms : List Micro} (h : ms.all Micro.outsideByte = true) :
    KeepsBetweenBytes ms := by
  induction ms with
  | nil => exact fun _ hx => hx
  | cons m ms ih =>
    obtain ⟨hm, hms⟩ := Bool.and_eq_true_iff.mp h
    exact fun x hx => ih hms (m.run x) (m.run_betweenBytes hm hx)

theorem keepsBetweenBytes_byteMicros (b : Byte) : KeepsBetweenBytes (byteMicros b) := fun x hx => by
  rw [run_byteMicros_after b x hx.1]; exact hx.afterBytes [b]

theorem keepsBetweenBytes_dataMicros (r : Level) (d : List Byte) : KeepsBetweenBytes (dataMicros r d) := fun x hx => by
  obtain ⟨p, hp⟩ := run_dataMicros r d x hx.1
  rw [hp]; exact hx.afterBytes d

theorem keepsBetweenBytes_frameMicros (c : Byte) (d : List Byte) (r : Level) :
    KeepsBetweenBytes (frameMicros c d r) :=
  have hselect : KeepsBetweenBytes [.phase .select, .drive .csn false, .phase .command] :=
    keepsBetweenBytes_of_outsideByte rfl
  have hstatus : KeepsBetweenBytes [.captureStat] := keepsBetweenBytes_of_outsideByte rfl
  have hrelease : KeepsBetweenBytes [.phase .release, .drive .csn true, .phase .idle] :=
    keepsBetweenBytes_of_outsideByte rfl
  (((hselect.append (keepsBetweenBytes_byteMicros c)).append hstatus).append (keepsBetweenBytes_dataMicros r d)).append
    hrelease

theorem keepsBetweenBytes_xferMicros (b : Byte) : KeepsBetweenBytes (xferMicros b) :=
  have hphase : KeepsBetweenBytes [.phase (.data 0 1)] := keepsBetweenBytes_of_outsideByte rfl
  (hphase.append (keepsBetweenBytes_byteMicros b)).append (keepsBetweenBytes_of_outsideByte rfl)

theorem keepsBetweenBytes_xferNMicros (d : List Byte) (r : Level) : KeepsBetweenBytes (xferNMicros d r) := by
  cases d with
  | nil => exact keepsBetweenBytes_of_outsideByte rfl
  | cons b d => exact (keepsBetweenBytes_dataMicros r (b :: d)).append (keepsBetweenBytes_of_outsideByte rfl)

theorem keepsBetweenBytes_instrMicros (s : State) (i : Instr) : KeepsBetweenBytes (instrMicros s i) := by
  cases i using cases_sequenced with
  | framed i hseq =>
    obtain ⟨c, d, r, hframe⟩ := instrMicros_of_sequenced s hseq
    exact hframe ▸ keepsBetweenBytes_frameMicros c d r
  | xfer b => exact keepsBetweenBytes_xferMicros b
  | xferN d r => exact keepsBetweenBytes_xferNMicros d r
  | csnLow | csnHigh | ceHigh | ceLow => exact keepsBetweenBytes_of_outsideByte rfl
  | cePulse =>
    refine keepsBetweenBytes_of_outsideByte ?_
    unfold instrMicros
    cases s.ce <;> cases s.params.minimizeCurrent <;> rfl

theorem exec_keeps_inv {i : Instr} {s t : State} (hs : Inv s) (h : exec i s = .next t) : Inv t := by
  obtain ⟨hidle, hbetween⟩ := inv_iff.mp hs
  obtain ⟨-, rfl⟩ := exec_next h
  exact inv_iff.mpr ⟨runMicros_instrMicros_phase s i hidle, keepsBetweenBytes_instrMicros s i ⟨s, []⟩ hbetween⟩

/-- Settles O44: a step waits or performs one instruction, and an instruction's micro-steps lead from between two bytes to
between two bytes. -/
theorem stepKeepsTheInvariant : Obligations.StepKeepsTheInvariant := by
  intro s t hs h
  obtain ⟨-, rfl⟩ | ⟨item, rest, i, -, hexec⟩ := step_next h
  · exact hs
  · exact exec_keeps_inv (s := { s with port := rest }) hs hexec

/-- Settles O45: at reset the lines are at the monitor's levels and the trace is empty. -/
theorem resetMeetsTheInvariant : Obligations.ResetMeetsTheInvariant :=
  ⟨⟨rfl, rfl, rfl⟩, fun _ _ _ => ⟨rfl, rfl, rfl⟩⟩

end Sys2Proof.Machine
end

section
/-! SUPPORT. Who writes `STAT` and chip-select (spec 10 R21, R34). -/

namespace Sys2Proof.Machine

/-- The micro-steps that write neither `STAT` nor chip-select. -/
def Micro.leavesStatAndCsn : Micro → Bool
  | .captureStat | .drive .csn _ => false
  | .phase _ | .drive .sck _ | .drive .mosi _ | .drive .ce _ | .loadSho _ | .clearShi | .setBit _ | .driveBit
  | .sampleShift | .keep | .wait _ => true

theorem Micro.run_stat_csn {m : Micro} (h : m.leavesStatAndCsn = true) (x : Run) :
    (m.run x).st.stat = x.st.stat ∧ (m.run x).st.csn = x.st.csn := by
  cases m with
  | drive l b =>
    cases l with
    | sck => exact ⟨driveSck_stat b x.st, driveSck_csn b x.st⟩
    | mosi => exact ⟨rfl, rfl⟩
    | ce => exact ⟨driveCe_stat b x.st, driveCe_csn b x.st⟩
    | csn => exact Bool.noConfusion h
  | captureStat => exact Bool.noConfusion h
  | phase | loadSho | clearShi | setBit | driveBit | sampleShift | keep | wait => exact ⟨rfl, rfl⟩

theorem runMicros_stat_csn {ms : List Micro} (h : ms.all Micro.leavesStatAndCsn = true) (x : Run) :
    (runMicros ms x).st.stat = x.st.stat ∧ (runMicros ms x).st.csn = x.st.csn := by
  induction ms generalizing x with
  | nil => exact ⟨rfl, rfl⟩
  | cons m ms ih =>
    obtain ⟨hm, hms⟩ := Bool.and_eq_true_iff.mp h
    obtain ⟨hstat, hcsn⟩ := m.run_stat_csn hm x
    obtain ⟨hstat', hcsn'⟩ := ih hms (m.run x)
    exact ⟨hstat'.trans hstat, hcsn'.trans hcsn⟩

theorem byteMicros_leavesStatAndCsn (b : Byte) : (byteMicros b).all Micro.leavesStatAndCsn = true := rfl

theorem settlePoint_leavesStatAndCsn (r : Level) (k : Nat) : (settlePoint r k).all Micro.leavesStatAndCsn = true := by
  unfold settlePoint; split <;> rfl

theorem dataMicrosFrom_leavesStatAndCsn (r : Level) (n k : Nat) (d : List Byte) :
    (dataMicrosFrom r n k d).all Micro.leavesStatAndCsn = true := by
  induction d generalizing k with
  | nil => rfl
  | cons b d ih =>
    simp only [dataMicrosFrom, List.all_append, settlePoint_leavesStatAndCsn, byteMicros_leavesStatAndCsn, ih]
    rfl

/-- The requests that are no frame and do not drive chip-select write neither `STAT` nor chip-select. -/
theorem instrMicros_leavesStatAndCsn (s : State) {i : Instr} (hraw : i.sequenced = false) (hlow : i ≠ .csnLow)
    (hhigh : i ≠ .csnHigh) : (instrMicros s i).all Micro.leavesStatAndCsn = true := by
  cases i using cases_sequenced with
  | framed i hseq => exact absurd hraw (by rw [hseq]; decide)
  | csnLow => exact absurd rfl hlow
  | csnHigh => exact absurd rfl hhigh
  | xfer | ceHigh | ceLow => rfl
  | xferN d r =>
    cases d with
    | nil => rfl
    | cons b d =>
      rw [instrMicros, xferNMicros, List.all_append, dataMicros, dataMicrosFrom_leavesStatAndCsn]
      rfl
  | cePulse =>
    unfold instrMicros
    cases s.ce <;> cases s.params.minimizeCurrent <;> rfl

/-- The requests `CSN_LOW` and `CSN_HIGH` leave chip-select at their level and `STAT` as it was (40 R66, R67). -/
theorem runMicros_driveCsn (p : Phase) (b : Level) (x : Run) :
    (runMicros [.phase p, .drive .csn b, .phase .idle] x).st.csn = b ∧
      (runMicros [.phase p, .drive .csn b, .phase .idle] x).st.stat = x.st.stat :=
  ⟨driveCsn_csn b _, driveCsn_stat b _⟩

/-- A frame releases chip-select at its end (42 R75). -/
theorem runMicros_frameMicros_csn (c : Byte) (d : List Byte) (r : Level) (x : Run) :
    (runMicros (frameMicros c d r) x).st.csn = true := by
  rw [frameMicros, runMicros_append]
  exact (runMicros_driveCsn .release true _).1

/-- Settles O37: the raw requests have no micro-step that writes `STAT`. -/
theorem rawRequestsKeepStat : Obligations.RawRequestsKeepStat := by
  intro i s t hraw h
  obtain ⟨-, rfl⟩ := exec_next h
  by_cases hlow : i = .csnLow
  · subst hlow; exact (runMicros_driveCsn .select false _).2
  by_cases hhigh : i = .csnHigh
  · subst hhigh; exact (runMicros_driveCsn .release true _).2
  exact (runMicros_stat_csn (instrMicros_leavesStatAndCsn s hraw hlow hhigh) _).1

/-- Settles O38: a frame ends by releasing chip-select, `CSN_LOW` and `CSN_HIGH` drive it, and the other requests have no
micro-step that does. -/
theorem chipSelectBetweenRequests : Obligations.ChipSelectBetweenRequests := by
  intro i s t h
  obtain ⟨-, rfl⟩ := exec_next h
  refine ⟨fun hseq => ?_, ?_, ?_, fun hraw hlow hhigh => ?_⟩
  · obtain ⟨c, d, r, hframe⟩ := instrMicros_of_sequenced s hseq
    rw [hframe]
    exact runMicros_frameMicros_csn c d r _
  · rintro rfl; exact (runMicros_driveCsn .select false _).1
  · rintro rfl; exact (runMicros_driveCsn .release true _).1
  · exact (runMicros_stat_csn (instrMicros_leavesStatAndCsn s hraw hlow hhigh) _).2

end Sys2Proof.Machine
end

section
/-! SUPPORT. The phases and the values of `BIT` that a request passes (spec 10 R19, R20; 40 R68, R69; 42 R75). -/

namespace Sys2Proof.Machine

@[simp] theorem phasesOf_append (l m : List Micro) : phasesOf (l ++ m) = phasesOf l ++ phasesOf m :=
  List.filterMap_append

@[simp] theorem bitsOf_append (l m : List Micro) : bitsOf (l ++ m) = bitsOf l ++ bitsOf m :=
  List.filterMap_append

@[simp] theorem phasesOf_byteMicros (b : Byte) : phasesOf (byteMicros b) = [] := rfl

@[simp] theorem bitsOf_byteMicros (b : Byte) : bitsOf (byteMicros b) = [7, 6, 5, 4, 3, 2, 1, 0] := rfl

@[simp] theorem phasesOf_settlePoint (r : Level) (k : Nat) : phasesOf (settlePoint r k) = [] := by
  unfold settlePoint; split <;> rfl

@[simp] theorem bitsOf_settlePoint (r : Level) (k : Nat) : bitsOf (settlePoint r k) = [] := by
  unfold settlePoint; split <;> rfl

/-- A data phase passes `DATA(j, n)` for each of its bytes, in order. -/
theorem phasesOf_dataMicrosFrom (r : Level) (n k : Nat) (d : List Byte) :
    phasesOf (dataMicrosFrom r n k d) = (List.range' k d.length).map fun j => .data j n := by
  induction d generalizing k with
  | nil => rfl
  | cons b d ih =>
    simp only [dataMicrosFrom, phasesOf_append, phasesOf_settlePoint, phasesOf_byteMicros, ih]
    rfl

theorem phasesOf_dataMicros (r : Level) (d : List Byte) :
    phasesOf (dataMicros r d) = (List.range d.length).map fun k => .data k d.length := by
  rw [dataMicros, phasesOf_dataMicrosFrom, List.range_eq_range']

/-- `BIT` counts down once for each byte of a data phase. -/
theorem bitsOf_dataMicrosFrom (r : Level) (n k : Nat) (d : List Byte) :
    bitsOf (dataMicrosFrom r n k d) = (d.map fun _ => [7, 6, 5, 4, 3, 2, 1, 0]).flatten := by
  induction d generalizing k with
  | nil => rfl
  | cons b d ih =>
    simp only [dataMicrosFrom, bitsOf_append, bitsOf_settlePoint, bitsOf_byteMicros, ih]
    rfl

theorem bitsOf_dataMicros (r : Level) (d : List Byte) :
    bitsOf (dataMicros r d) = (d.map fun _ => [7, 6, 5, 4, 3, 2, 1, 0]).flatten :=
  bitsOf_dataMicrosFrom r d.length 0 d

/-- Settles O42: the data phase passes `DATA(k, n)` byte by byte, and nothing inside a byte writes `PHASE`. -/
theorem framePassesThePhasesInOrder : Obligations.FramePassesThePhasesInOrder := by
  intro c d r
  refine ⟨?_, rfl, ?_⟩
  · simp only [frameMicros, phasesOf_append, phasesOf_byteMicros, phasesOf_dataMicros]
    rfl
  · cases d with
    | nil => rfl
    | cons b d => rw [xferNMicros, phasesOf_append, phasesOf_dataMicros]; rfl

/-- Settles O43: each byte counts `BIT` down once, and nothing outside a byte writes it. -/
theorem bitCountsDownInEveryByte : Obligations.BitCountsDownInEveryByte := by
  intro c d r
  refine ⟨?_, rfl, ?_⟩
  · simp only [frameMicros, bitsOf_append, bitsOf_byteMicros, bitsOf_dataMicros]
    exact List.append_nil _
  · cases d with
    | nil => rfl
    | cons b d => rw [xferNMicros, bitsOf_append, bitsOf_dataMicros]; exact List.append_nil _

end Sys2Proof.Machine
end

section
/-! SUPPORT. What no step writes (spec 10 R26; 20 R45), and what the levels on MISO do not reach (10 R16, R24; 42 R85). -/

namespace Sys2Proof.Machine

theorem exec_params_port {i : Instr} {s t : State} (h : exec i s = .next t) :
    t.params = s.params ∧ t.port = s.port := by
  obtain ⟨-, rfl⟩ := exec_next h
  obtain ⟨hparams, hport, -, -⟩ := runMicros_keeps (instrMicros s i) { st := s, buf := [] }
  exact ⟨hparams, hport⟩

/-- Settles O46: no micro-step writes the record or the port, so only the item the step performs is taken. -/
theorem stepKeepsParametersAndTakesOneItem : Obligations.StepKeepsParametersAndTakesOneItem := by
  intro s t h
  obtain ⟨hport, rfl⟩ | ⟨item, rest, i, hport, hexec⟩ := step_next h
  · exact ⟨rfl, by rw [hport]; rfl⟩
  · obtain ⟨hparams, hrest⟩ := exec_params_port hexec
    exact ⟨hparams, by rw [hport]; exact hrest⟩

/-- Two states in which the block does the same: they differ at most in `SHI`, `STAT`, the results, the levels to come and
the sampled levels of the trace. -/
structure SameOutputs (s t : State) : Prop where
  sck : s.sck = t.sck
  mosi : s.mosi = t.mosi
  csn : s.csn = t.csn
  ce : s.ce = t.ce
  sho : s.sho = t.sho
  bit : s.bit = t.bit
  phase : s.phase = t.phase
  params : s.params = t.params
  port : s.port = t.port
  trace : s.trace.map Event.blind = t.trace.map Event.blind

theorem SameOutputs.with_levels (s : State) (levels : List Level) (k : Nat) :
    SameOutputs { s with miso := levels, samples := k } s :=
  ⟨rfl, rfl, rfl, rfl, rfl, rfl, rfl, rfl, rfl, rfl⟩

/-- Driving a line does the same in both: an edge depends on the line's level and, for the clock, on that of MOSI. -/
theorem SameOutputs.drive {s t : State} (h : SameOutputs s t) (l : Line) (b : Level) :
    SameOutputs (drive l b s) (drive l b t) := by
  cases l with
  | sck =>
    simp only [Machine.drive, driveSck, h.sck]
    split
    · exact h
    · exact { h with sck := rfl, trace := by simp only [List.map_append, h.trace, h.mosi] }
  | mosi => exact { h with mosi := rfl }
  | csn =>
    simp only [Machine.drive, driveCsn, h.csn]
    split
    · exact h
    · exact { h with csn := rfl, trace := by simp only [List.map_append, h.trace] }
  | ce =>
    simp only [Machine.drive, driveCe, h.ce]
    split
    · exact h
    · exact { h with ce := rfl, trace := by simp only [List.map_append, h.trace] }

/-- A sample does the same in both but for the level it reads. -/
theorem SameOutputs.sampleShift {s t : State} (h : SameOutputs s t) : SameOutputs (sampleShift s) (sampleShift t) :=
  { h with trace := by rw [sampleShift_trace, sampleShift_trace, List.map_append, List.map_append, h.trace]; rfl }

theorem Micro.run_sameOutputs (m : Micro) {x y : Run} (h : SameOutputs x.st y.st) :
    SameOutputs (m.run x).st (m.run y).st := by
  cases m with
  | phase p => exact { h with phase := rfl }
  | drive l b => exact h.drive l b
  | loadSho b => exact { h with sho := rfl }
  | setBit k => exact { h with bit := rfl }
  | driveBit => exact { h with mosi := by simp only [Micro.run, driveMosi_mosi, h.sho, h.bit] }
  | sampleShift => exact h.sampleShift
  | clearShi | captureStat => exact { h with }
  | keep | wait => exact h

theorem runMicros_sameOutputs (ms : List Micro) {x y : Run} (h : SameOutputs x.st y.st) :
    SameOutputs (runMicros ms x).st (runMicros ms y).st := by
  induction ms generalizing x y with
  | nil => exact h
  | cons m ms ih => exact ih (m.run_sameOutputs h)

/-- The block accepts the same instructions in both. -/
theorem SameOutputs.refusalOf {s t : State} (h : SameOutputs s t) (framed : Bool) (len : Nat) :
    refusalOf framed len s = refusalOf framed len t := by
  simp only [Machine.refusalOf, h.phase, h.params, h.csn]

/-- An instruction has the same micro-steps in both: they depend on the record and on chip-enable alone. -/
theorem SameOutputs.instrMicros {s t : State} (h : SameOutputs s t) (i : Instr) : instrMicros s i = instrMicros t i := by
  cases i <;> simp only [Machine.instrMicros, h.params, h.ce]

/-- An instruction that completes in one completes in the other, and the block does the same. -/
theorem exec_sameOutputs {i : Instr} {s t u : State} (h : SameOutputs s t) (ht : exec i t = .next u) :
    ∃ v, exec i s = .next v ∧ SameOutputs v u := by
  obtain ⟨haccepted, rfl⟩ := exec_next ht
  refine ⟨_, exec_of_accepted ((h.refusalOf _ _).trans haccepted), ?_⟩
  rw [h.instrMicros i]
  exact { runMicros_sameOutputs (instrMicros t i) (x := ⟨s, []⟩) (y := ⟨t, []⟩) h with }

/-- Settles O49: a change of the levels to come changes no output, by induction on the instruction's micro-steps. -/
theorem outputsDoNotDependOnMiso : Obligations.OutputsDoNotDependOnMiso := by
  intro i s t levels k h
  obtain ⟨t', hexec, hsame⟩ := exec_sameOutputs (.with_levels s levels k) h
  exact ⟨t', hexec, hsame.trace, hsame.sck, hsame.mosi, hsame.csn, hsame.ce, hsame.sho, hsame.bit, hsame.phase,
    hsame.params, hsame.port⟩

end Sys2Proof.Machine
end

section
/-! SUPPORT. Reset (spec 10 R33, 70 R115; 30 R53). -/

namespace Sys2Proof.Machine

/-- The record at reset is well formed: the default command codes pass the check of 30 R53, and `MAXLEN` is 5 and more. -/
theorem atReset_wf : Params.atReset.wf = true := by
  have hcodes : WireCodes.defaults.wf = true := by decide
  have hmax : 5 ≤ Params.atReset.maxLen := Nat.le_add_left 5 Config.maxLenAbove5
  exact Bool.and_eq_true_iff.mpr ⟨hcodes, decide_eq_true hmax⟩

/-- Settles O12: the reset state's fields, and the record of log entry 10. -/
theorem resetLeaves : Obligations.ResetLeaves := fun _ =>
  ⟨rfl, rfl, rfl, rfl, rfl, rfl, rfl, atReset_wf⟩

end Sys2Proof.Machine
end

section
/-! SUPPORT. The order of the bits on both lines (spec 20 R36, R37): the events of a request carry the bytes it sends on MOSI
and the bytes that arrive on MISO, bit 7 of each first. -/

namespace Sys2Proof.Machine

@[simp] theorem mosiLevels_append (es fs : List Event) : mosiLevels (es ++ fs) = mosiLevels es ++ mosiLevels fs :=
  List.filterMap_append

/-- The levels that arrive during a byte are the bits of the byte, 7 first. -/
theorem bitsMsbFirst_inByte (s : State) (k : Nat) :
    bitsMsbFirst (s.inByte k) = (List.range 8).map fun j => s.nextLevel (8 * k + j) :=
  byteOfLevels_bits _ _ _ _ _ _ _ _

/-- The levels that arrive during `n` bytes are the bits of the bytes in order of arrival. -/
theorem bitsMsbFirst_inBytes (s : State) (n : Nat) :
    ((s.inBytes 0 n).map bitsMsbFirst).flatten = (List.range (8 * n)).map s.nextLevel := by
  induction n with
  | zero => rfl
  | succ n ih =>
    have hlast : s.inBytes (0 + n) 1 = [s.inByte n] := by rw [Nat.zero_add]; rfl
    rw [inBytes_add, hlast, List.map_append, List.flatten_append, ih, Nat.mul_succ, List.range_add, List.map_append,
      List.map_map]
    simp only [List.map_singleton, List.flatten_singleton, bitsMsbFirst_inByte, Function.comp_def]

/-- The bits of the first bytes of a list are the first of its bits. -/
theorem bitsMsbFirst_prefix {l m : List Byte} (h : l <+: m) :
    (l.map bitsMsbFirst).flatten <+: (m.map bitsMsbFirst).flatten := by
  obtain ⟨rest, rfl⟩ := h
  exact ⟨(rest.map bitsMsbFirst).flatten, by rw [List.map_append, List.flatten_append]⟩

/-- The bits of the last bytes of a list are the last of its bits. -/
theorem bitsMsbFirst_suffix {l m : List Byte} (h : l <:+ m) :
    (l.map bitsMsbFirst).flatten <:+ (m.map bitsMsbFirst).flatten := by
  obtain ⟨first, rfl⟩ := h
  exact ⟨(first.map bitsMsbFirst).flatten, by rw [List.map_append, List.flatten_append]⟩

/-- Events that carry the bytes `os` on MOSI and the bytes `is` on MISO, bit 7 of each first (20 R36). -/
structure CarriesBytes (os is : List Byte) (es : List Event) : Prop where
  mosi : mosiLevels es = (os.map bitsMsbFirst).flatten
  miso : sampledLevels es = (is.map bitsMsbFirst).flatten

theorem CarriesBytes.append {os is os' is' : List Byte} {es es' : List Event} (h : CarriesBytes os is es)
    (h' : CarriesBytes os' is' es') : CarriesBytes (os ++ os') (is ++ is') (es ++ es') where
  mosi := by rw [mosiLevels_append, h.mosi, h'.mosi, List.map_append, List.flatten_append]
  miso := by rw [sampledLevels_append, h.miso, h'.miso, List.map_append, List.flatten_append]

theorem carriesBytes_byteEvents (o i : Byte) : CarriesBytes [o] [i] (byteEvents o i) := ⟨rfl, rfl⟩

theorem carriesBytes_bytesEvents {os is : List Byte} (h : os.length = is.length) :
    CarriesBytes os is (bytesEvents os is) := by
  induction os generalizing is with
  | nil => rw [List.length_eq_zero_iff.mp h.symm]; exact ⟨rfl, rfl⟩
  | cons o os ih =>
    cases is with
    | nil => cases h
    | cons i is => exact (carriesBytes_byteEvents o i).append (ih (Nat.succ.inj h))

/-- The edges of chip-select around a frame carry no bit. -/
theorem carriesBytes_frameEvents {os is : List Byte} (h : os.length = is.length) :
    CarriesBytes os is (frameEvents os is) := by
  have hfall : CarriesBytes [] [] [.csnDown] := ⟨rfl, rfl⟩
  have hrise : CarriesBytes [] [] [.csnUp] := ⟨rfl, rfl⟩
  have hframe := (hfall.append (carriesBytes_bytesEvents h)).append hrise
  rwa [List.nil_append, List.nil_append, List.append_nil, List.append_nil] at hframe

/-- A micro-step outside a byte appends at most an edge of chip-select or chip-enable. -/
theorem Micro.run_carries_nothing {m : Micro} (hm : m.outsideByte = true) (x : Run) :
    ∃ es, (m.run x).st.trace = x.st.trace ++ es ∧ CarriesBytes [] [] es := by
  cases m with
  | drive l b =>
    cases l with
    | csn => exact ⟨_, driveCsn_trace b x.st, by cases b <;> split <;> exact ⟨rfl, rfl⟩⟩
    | ce => exact ⟨_, driveCe_trace b x.st, by cases b <;> split <;> exact ⟨rfl, rfl⟩⟩
    | sck | mosi => exact Bool.noConfusion hm
  | phase | captureStat | keep | wait => exact ⟨[], (List.append_nil _).symm, rfl, rfl⟩
  | loadSho | clearShi | setBit | driveBit | sampleShift => exact Bool.noConfusion hm

theorem runMicros_carries_nothing {ms : List Micro} (h : ms.all Micro.outsideByte = true) (x : Run) :
    ∃ es, (runMicros ms x).st.trace = x.st.trace ++ es ∧ CarriesBytes [] [] es := by
  induction ms generalizing x with
  | nil => exact ⟨[], (List.append_nil _).symm, rfl, rfl⟩
  | cons m ms ih =>
    obtain ⟨hm, hms⟩ := Bool.and_eq_true_iff.mp h
    obtain ⟨es, htrace, hcarries⟩ := m.run_carries_nothing hm x
    obtain ⟨es', htrace', hcarries'⟩ := ih hms (m.run x)
    exact ⟨es ++ es', by rw [runMicros_cons, htrace', htrace, List.append_assoc], hcarries.append hcarries'⟩

/-- A request that sends the bytes `os` from `s` has run to `x`: its events carry them and the bytes that arrive (20 R36,
R37); of these a sequenced command has captured the first in `STAT` (42 R76), and a request that returns data has kept the
last (30 R57). -/
structure Exchanges (framed returnsData : Bool) (os : List Byte) (s : State) (x : Run) : Prop where
  events : ∃ es, x.st.trace = s.trace ++ es ∧ CarriesBytes os (s.inBytes 0 os.length) es
  status : framed = true → [x.st.stat] <+: s.inBytes 0 os.length
  data : returnsData = true → x.buf <:+ s.inBytes 0 os.length

/-- A frame exchanges its command byte and its data bytes. -/
theorem exchanges_frameMicros (c : Byte) (d : List Byte) (r : Level) {s : State} (hi : s.phase = .idle)
    (hk : s.sck = false) (hc : s.csn = true) (framed returnsData : Bool) :
    Exchanges framed returnsData (c :: d) s (runMicros (frameMicros c d r) { st := s, buf := [] }) := by
  rw [run_frameMicros c d r s hi hk hc { status := none, data := none }]
  have hin : s.inBytes 0 (c :: d).length = s.inByte 0 :: s.inBytes 1 d.length := inBytes_succ s 0 d.length
  exact {
    events := ⟨_, rfl, carriesBytes_frameEvents (inBytes_length s 0 _).symm⟩
    status := fun _ => hin ▸ List.prefix_append [s.inByte 0] _
    data := fun _ => hin ▸ List.suffix_cons _ _ }

/-- The transfer requests exchange the bytes given, and keep all that arrive (40 R68, R69). -/
theorem exchanges_afterBytes (d : List Byte) (s : State) (p : Phase) (returnsData : Bool) :
    Exchanges false returnsData d s { st := { s.afterBytes d with phase := p }, buf := s.inBytes 0 d.length } where
  events := ⟨_, afterBytes_trace s d, carriesBytes_bytesEvents (inBytes_length s 0 _).symm⟩
  status := nofun
  data _ := List.suffix_rfl

/-- The requests that only drive chip-select or chip-enable exchange no byte (40 R66, R67; 41 R70). -/
theorem exchanges_of_outsideByte {ms : List Micro} (h : ms.all Micro.outsideByte = true) (s : State) :
    Exchanges false false [] s (runMicros ms { st := s, buf := [] }) where
  events := runMicros_carries_nothing h _
  status := nofun
  data := nofun

theorem runMicros_xferMicros (b : Byte) {s : State} (hk : s.sck = false) :
    runMicros (xferMicros b) { st := s, buf := [] } =
      { st := { s.afterBytes [b] with phase := .idle }, buf := s.inBytes 0 [b].length } := by
  rw [xferMicros, runMicros_append, runMicros_append,
    run_byteMicros_after b (runMicros [.phase (.data 0 1)] { st := s, buf := [] }) hk]
  rfl

theorem runMicros_xferNMicros (d : List Byte) (r : Level) {s : State} (hi : s.phase = .idle) (hk : s.sck = false) :
    runMicros (xferNMicros d r) { st := s, buf := [] } =
      { st := { s.afterBytes d with phase := .idle }, buf := s.inBytes 0 d.length } := by
  cases d with
  | nil => cases s; cases hi; rfl
  | cons b d =>
    obtain ⟨p, hp⟩ := run_dataMicros r (b :: d) { st := s, buf := [] } hk
    rw [xferNMicros, runMicros_append, hp]
    rfl

/-- Every sequenced command is one frame of the bytes it sends (42 R75). -/
theorem instrMicros_eq_frame_of_sent (s : State) {i : Instr} (h : i.sequenced = true) :
    ∃ c d r, instrMicros s i = frameMicros c d r ∧ i.sent s.params = c :: d := by
  cases i with
  | wRreg | wWreg | wRRxPlWid | wRRxPayload | wWTxPayload | wFlushTx | wFlushRx
  | readReg | writeReg | flushTx | flushRx | readPlWid | readPayload | writePayload => exact ⟨_, _, _, rfl, rfl⟩
  | csnLow | csnHigh | xfer | xferN | ceHigh | ceLow | cePulse => exact Bool.noConfusion h

/-- Every instruction of an idle block with the clock low exchanges the bytes it sends. -/
theorem exchanges_instrMicros (i : Instr) {s : State} (hi : s.phase = .idle) (hk : s.sck = false)
    (hc : i.sequenced = true → s.csn = true) :
    Exchanges i.sequenced i.returnsData (i.sent s.params) s (runMicros (instrMicros s i) { st := s, buf := [] }) := by
  cases i using cases_sequenced with
  | framed i hseq =>
    obtain ⟨c, d, r, hframe, hsent⟩ := instrMicros_eq_frame_of_sent s hseq
    rw [hframe, hsent]
    exact exchanges_frameMicros c d r hi hk (hc hseq) _ _
  | xfer b => exact (runMicros_xferMicros b hk).symm ▸ exchanges_afterBytes [b] s .idle true
  | xferN d r => exact (runMicros_xferNMicros d r hi hk).symm ▸ exchanges_afterBytes d s .idle true
  | csnLow | csnHigh | ceHigh | ceLow => exact exchanges_of_outsideByte rfl s
  | cePulse =>
    refine exchanges_of_outsideByte ?_ s
    unfold instrMicros
    cases s.ce <;> cases s.params.minimizeCurrent <;> rfl

/-- The status of a result is `STAT`, for the sequenced commands only (30 R57). -/
theorem instrReply_status (i : Instr) (x : Run) :
    (instrReply i x).status = if i.sequenced = true then some x.st.stat else none := by
  cases i <;> rfl

/-- The data of a result are the bytes kept, for the requests that return data only (30 R57). -/
theorem instrReply_data (i : Instr) (x : Run) :
    (instrReply i x).data = if i.returnsData = true then some x.buf else none := by
  cases i <;> rfl

/-- Settles O18: every instruction exchanges the bytes it sends for those that arrive, and its result is read from the ends
of the latter. -/
theorem bytesGoMostSignificantBitFirst : Obligations.BytesGoMostSignificantBitFirst := by
  rintro i s ⟨hidle, hwf, hsck⟩ hlen hcsn
  have haccepted : refusalOf i.sequenced i.len s = none :=
    refusalOf_eq_none.mpr ⟨hidle, hwf, of_decide_eq_true hlen, hcsn⟩
  obtain ⟨⟨es, htrace, hcarries⟩, hstatus, hdata⟩ := exchanges_instrMicros i hidle hsck hcsn
  obtain ⟨-, -, hresults, -⟩ := runMicros_keeps (instrMicros s i) { st := s, buf := [] }
  refine ⟨_, es, instrReply i _, exec_of_accepted haccepted, htrace, congrArg (· ++ [_]) hresults, hcarries.mosi,
    hcarries.miso.trans (bitsMsbFirst_inBytes s _), fun st hst => ?_, fun d hd => ?_⟩
  · rw [instrReply_status, Option.ite_none_right_eq_some, Option.some.injEq] at hst
    obtain ⟨hseq, rfl⟩ := hst
    rw [hcarries.miso]
    have hbits := bitsMsbFirst_prefix (hstatus hseq)
    rwa [List.map_singleton, List.flatten_singleton] at hbits
  · rw [instrReply_data, Option.ite_none_right_eq_some, Option.some.injEq] at hd
    obtain ⟨hreturns, rfl⟩ := hd
    rw [hcarries.miso]
    exact bitsMsbFirst_suffix (hdata hreturns)

end Sys2Proof.Machine
end

section
/-! SUPPORT. What one step performs and appends (spec 20 R45; 70 R129). -/

namespace Sys2Proof.Machine

/-- Settles O47: micro-steps only append to the trace and write no result; the one result is appended at the end. -/
theorem traceAndResultsOnlyGrow : Obligations.TraceAndResultsOnlyGrow := by
  intro i s t h
  obtain ⟨-, rfl⟩ := exec_next h
  obtain ⟨-, -, hresults, htrace⟩ := runMicros_keeps (instrMicros s i) { st := s, buf := [] }
  exact ⟨htrace, _, congrArg (· ++ [_]) hresults⟩

/-- Settles O8: the two matches of a step, on the port and on what its oldest item decodes to. -/
theorem stepRunsTheDecodedInstruction : Obligations.StepRunsTheDecodedInstruction := by
  intro s item rest i hport hdecode
  simp only [step, hport, hdecode]

end Sys2Proof.Machine
end

section
/-! SUPPORT. The command byte and the check of the command codes (spec 30 R50, R51, R53). -/

namespace Sys2Proof

theorem effAddr_getLsbD (a : Byte) (k : Nat) : (effAddr a).getLsbD k = (decide (k < 5) && a.getLsbD k) := by
  have hmask : (0x1F : Byte) = (BitVec.allOnes 5).setWidth 8 := by decide
  rw [effAddr, hmask, BitVec.getLsbD_setWidth, BitVec.getLsbD_and, BitVec.getLsbD_setWidth, BitVec.getLsbD_allOnes]
  by_cases hk : k < 5
  · simp [hk, Nat.lt_of_lt_of_le hk (by decide : 5 ≤ 8)]
  · simp [hk]

@[simp] theorem opField_regCommand (op : BitVec 3) (ea : Addr5) : opField (regCommand op ea) = op := by
  refine BitVec.eq_of_getLsbD_eq fun k hk => ?_
  have h8 : 5 + k < 8 := by omega
  simp [opField, regCommand, hk, h8]

@[simp] theorem addrField_regCommand (op : BitVec 3) (ea : Addr5) : addrField (regCommand op ea) = ea := by
  refine BitVec.eq_of_getLsbD_eq fun k hk => ?_
  simp [addrField, regCommand, hk, Nat.lt_of_lt_of_le hk (by decide : 5 ≤ 8)]

/-- A command byte is made of its two fields. -/
theorem regCommand_opField_addrField (c : Byte) : regCommand (opField c) (addrField c) = c := by
  revert c; decide

theorem regCommand_ne_regCommand {op op' : BitVec 3} (h : op ≠ op') (ea ea' : Addr5) :
    regCommand op ea ≠ regCommand op' ea' := fun he =>
  h (by rw [← opField_regCommand op ea, he, opField_regCommand])

/-- The check of 30 R53, condition by condition. -/
theorem WireCodes.wf_iff (w : WireCodes) :
    w.wf = true ↔ w.opRreg ≠ w.opWreg ∧ w.fixed.Nodup ∧
      ∀ f ∈ w.fixed, opField f ≠ w.opRreg ∧ opField f ≠ w.opWreg := by
  simp only [WireCodes.wf, Bool.and_eq_true, decide_eq_true_eq, List.all_eq_true, and_assoc]

/-- No fixed code is a register command byte of an opcode that its bits 7:5 do not hold. -/
theorem regCommand_notMem {op : BitVec 3} {codes : List Byte} (h : ∀ f ∈ codes, opField f ≠ op) (ea : Addr5) :
    regCommand op ea ∉ codes := fun hmem => h _ hmem (opField_regCommand op ea)

end Sys2Proof
end

section
/-! SUPPORT. The decoder and the encoder against each other (spec 30 R50 to R61). -/

namespace Sys2Proof

theorem decodeFrame_readCommand (w : WireCodes) (ea : Addr5) (d : List Byte) :
    decodeFrame w (regCommand w.opRreg ea :: d) = .ok (.wRreg ea d.length) := by
  rw [decodeFrame, opField_regCommand, addrField_regCommand, if_pos rfl]

theorem decodeFrame_writeCommand {w : WireCodes} (h : w.opRreg ≠ w.opWreg) (ea : Addr5) (d : List Byte) :
    decodeFrame w (regCommand w.opWreg ea :: d) = .ok (.wWreg ea d) := by
  rw [decodeFrame, opField_regCommand, addrField_regCommand, if_neg h.symm, if_pos rfl]

/-- Settles O1: a request's record is matched by its own row; a register access is told by its opcode field; R53
keeps a fixed code from those (`hfixed`) and from the fixed codes asked before it (`hlater`). -/
theorem decodeOfEncodeIsTheInstruction : Obligations.DecodeOfEncodeIsTheInstruction := by
  intro w dummy i h
  obtain ⟨hop, hnodup, hfixed⟩ := w.wf_iff.mp h
  have hlater : w.fixed.Pairwise fun c c' => c' ≠ c := hnodup.imp Ne.symm
  simp only [WireCodes.fixed, List.pairwise_cons, List.forall_mem_cons] at hlater hfixed
  cases i with
  | wRreg ad n => rw [encode, decode, decodeFrame_readCommand, List.length_replicate]
  | wWreg ad d => exact decodeFrame_writeCommand hop ad d
  | wRRxPlWid | wRRxPayload | wWTxPayload | wFlushTx | wFlushRx =>
    simp [encode, decode, decodeFrame, hfixed, hlater]
  | csnLow | csnHigh | xfer | xferN | readReg | writeReg | flushTx | flushRx | readPlWid | readPayload | writePayload
  | ceHigh | ceLow | cePulse => rfl

/-- Settles O2: the row that matches a record fixes its code and each of its fields. -/
theorem encodeOfDecodedRequestIsTheRequest : Obligations.EncodeOfDecodedRequestIsTheRequest := by
  rintro w dummy ⟨code, a, n, d, b, r⟩ i h
  have hcode : code = BitVec.ofNat 4 code.toNat := by simp
  simp only [decode, decodeRequest] at h
  split at h
  -- the two reserved codes, and the records that no row matches
  case h_1 | h_2 | h_17 => cases h
  -- the fourteen rows of 30 R55
  all_goals
    rename_i hrow
    cases h
    rw [hcode, hrow]
    rfl

/-- Settles O3: the branch of the table that a frame takes gives its command byte, and its data bytes or their number. -/
theorem decodedFrameIsTheCommandsFrame : Obligations.DecodedFrameIsTheCommandsFrame := by
  intro w dummy bytes i h
  cases bytes with
  | nil => cases h
  | cons c d =>
    have hc := regCommand_opField_addrField c
    simp only [decode, decodeFrame] at h
    split at h
    case isTrue hop => cases h; exact ⟨_, rfl, by simp, by simp [← hop, hc], nofun⟩
    split at h
    case isTrue hop => cases h; exact ⟨_, rfl, rfl, by simp [← hop, hc], fun _ => by rw [← hop, hc]⟩
    split at h
    case isTrue hwid =>
      split at h
      case isTrue hlen => cases h; exact ⟨_, rfl, by simp [hlen], by simp [hwid], nofun⟩
      case isFalse => cases h
    split at h
    case isTrue hread => cases h; exact ⟨_, rfl, by simp, by simp [hread], nofun⟩
    split at h
    case isTrue hload => cases h; exact ⟨_, rfl, rfl, by simp [hload], fun _ => by rw [hload]⟩
    split at h
    case isTrue htx =>
      split at h
      case isTrue hlen =>
        cases h
        exact ⟨_, rfl, by simp [hlen], by simp [htx], fun _ => by rw [htx, List.length_eq_zero_iff.mp hlen]⟩
      case isFalse => cases h
    split at h
    case isTrue hrx =>
      split at h
      case isTrue hlen =>
        cases h
        exact ⟨_, rfl, by simp [hlen], by simp [hrx], fun _ => by rw [hrx, List.length_eq_zero_iff.mp hlen]⟩
      case isFalse => cases h
    cases h

/-- A record of a reserved code is no request, whatever its fields (30 R60). -/
theorem decodeRequest_of_reserved {q : Request} (h : q.code = 0x0 ∨ q.code = 0xF) :
    decodeRequest q = .error .reservedCode := by
  obtain ⟨code, a, n, d, b, r⟩ := q
  obtain rfl | rfl := h <;> simp [decodeRequest]

/-- Settles O4: the rows of the request table, and the reserved codes. -/
theorem requestCodesDecode : Obligations.RequestCodesDecode :=
  ⟨fun _ _ _ _ _ _ => ⟨rfl, rfl, rfl, rfl, rfl, rfl, rfl, rfl, rfl, rfl, rfl, rfl, rfl, rfl⟩,
    fun _ _ h => decodeRequest_of_reserved h⟩

/-- Settles O5: the decoder evaluated on the eight frames. -/
theorem defaultCommandBytesDecode : Obligations.DefaultCommandBytesDecode :=
  ⟨rfl, rfl, rfl, rfl, rfl, rfl, rfl, rfl⟩

/-- Settles O6: the mask keeps bits 4:0, and the two fields of a command byte are those it is made of. -/
theorem addressMaskAndCommandByte : Obligations.AddressMaskAndCommandByte :=
  ⟨effAddr_getLsbD, fun op ea => ⟨opField_regCommand op ea, addrField_regCommand op ea⟩, fun _ _ =>
    ⟨opField_regCommand _ _, addrField_regCommand _ _, opField_regCommand _ _, addrField_regCommand _ _⟩⟩

end Sys2Proof
end

section
/-! SUPPORT. What is refused before any instruction is performed (spec 60 R103, R106; 30 R59, R60). -/

namespace Sys2Proof.Machine

/-- `BadConfig` comes before every check of the instruction's own (60 R106). -/
theorem exec_of_badConfig {s : State} (hidle : s.phase = .idle) (hwf : s.params.wf = false) (i : Instr) :
    exec i s = .refused .badConfig := by
  rw [exec_eq_perform]
  exact perform_of_refused _ _ (by simp [refusalOf, hidle, hwf])

/-- Settles O7: the check is its three conditions, and these keep the register command bytes and the fixed codes apart. -/
theorem commandBytesAreDistinct : Obligations.CommandBytesAreDistinct := by
  refine ⟨WireCodes.wf_iff, by decide, fun i s hidle hcodes => ?_, fun w ea ea' h => ?_⟩
  · exact exec_of_badConfig hidle (by rw [Params.wf, hcodes, Bool.false_and]) i
  · obtain ⟨hop, hnodup, hfixed⟩ := w.wf_iff.mp h
    exact ⟨regCommand_ne_regCommand hop ea ea', hnodup, regCommand_notMem (fun f hf => (hfixed f hf).1) ea,
      regCommand_notMem (fun f hf => (hfixed f hf).2) ea⟩

/-- A step on an item that decodes to nothing. -/
theorem step_of_decode_error {s : State} {item : Item} {rest : List Item} {e : DecodeError}
    (hport : s.port = item :: rest) (hdecode : decode s.params.codes item = .error e) :
    step s = .refused (rejectItem e s) := by
  simp only [step, hport, hdecode]

/-- From `IDLE` an item that decodes to nothing is refused as `BadConfig`, else under the name of its error. -/
theorem rejectItem_of_idle {s : State} (hidle : s.phase = .idle) (e : DecodeError) :
    rejectItem e s = if s.params.wf = true then decodeRefusal e else .badConfig := by
  cases hwf : s.params.wf <;> simp [rejectItem, hidle, hwf]

/-- Settles O10: a reserved code decodes to nothing, and is refused after `BadConfig`. -/
theorem reservedCodesAreRefused : Obligations.ReservedCodesAreRefused := by
  intro s q rest hidle hport hcode
  rw [step_of_decode_error hport (decodeRequest_of_reserved hcode), rejectItem_of_idle hidle]
  rfl

/-- Settles O11: with a well-formed record the refusal is the one that names the decoder's error. -/
theorem otherItemsAreRefusedByName : Obligations.OtherItemsAreRefusedByName := by
  intro s item rest e hidle hwf hport hdecode
  rw [step_of_decode_error hport hdecode, rejectItem_of_idle hidle, if_pos hwf]
  cases e <;> rfl

end Sys2Proof.Machine
end

section
/-! SUPPORT. The wire commands as frames, and the shape of a result (spec 30 R57, R58). -/

namespace Sys2Proof.Machine

/-- Settles O33: each wire command is an accepted write frame or read frame. -/
theorem wireCommandsPerformTheirFrame : Obligations.WireCommandsPerformTheirFrame := by
  rintro ad n d s ⟨hidle, hwf, hsck⟩ hcsn hn hd
  have haccepted (len : Nat) (hlen : len ≤ s.params.maxLen) : refusalOf true len s = none :=
    refusalOf_eq_none.mpr ⟨hidle, hwf, hlen, fun _ => hcsn⟩
  have hread (c : Byte) := readFrame_eq c n (haccepted n hn) hsck
  have hwrite (c : Byte) := writeFrame_eq c d (haccepted d.length hd) hsck
  have hflush (c : Byte) := writeFrame_eq c [] (haccepted 0 (Nat.zero_le _)) hsck
  have hwidth : execWRRxPlWid s = .next (s.afterFrame s.params.codes.cmdRRxPlWid [s.params.dummy]
      { status := some (s.inByte 0), data := some [s.inByte 1] }) :=
    sequenced_eq _ _ _ _ (haccepted 0 (Nat.zero_le _)) hsck _ fun x hstat hbuf => by
      rw [replyStatusData, hstat, hbuf]; rfl
  exact ⟨hread _, hwrite _, hwidth, hread _, hwrite _, hflush _, hflush _⟩

/-- Settles O34: a request and its wire command are the same frame, sent under the same checks. -/
theorem requestsAreTheWireCommandsTheySend : Obligations.RequestsAreTheWireCommandsTheySend :=
  fun _ _ _ _ => ⟨rfl, rfl, rfl, rfl, rfl, rfl, rfl⟩

/-- Settles O39: the one result appended is the instruction's reply, whose status and data stand as 30 R57 lists them. -/
theorem resultShapes : Obligations.ResultShapes := by
  intro i s t h
  obtain ⟨-, rfl⟩ := exec_next h
  obtain ⟨-, -, hresults, -⟩ := runMicros_keeps (instrMicros s i) { st := s, buf := [] }
  refine ⟨_, congrArg (· ++ [_]) hresults, ?_, ?_⟩
  · rw [instrReply_status]; cases i.sequenced <;> rfl
  · rw [instrReply_data]; cases i.returnsData <;> rfl

end Sys2Proof.Machine
end

section
/-! SUPPORT. Reading back the tokens of a request (spec 30 R62, R63; log entry 21). -/

namespace Sys2Proof.Machine

theorem hexValue_hexDigit : ∀ n < 16, hexValue (hexDigit n) = some n := by decide

theorem readByte_hexDigits (b : Byte) :
    readByte ['0', 'x', hexDigit (b.toNat / 16), hexDigit (b.toNat % 16)] = some b := by
  have hdiv : b.toNat / 16 < 16 := by omega
  simp only [readByte, hexValue_hexDigit _ hdiv, hexValue_hexDigit _ (Nat.mod_lt b.toNat (by decide : 16 > 0)),
    Nat.div_add_mod, BitVec.ofNat_toNat, BitVec.setWidth_eq]

/-- A word of decimal digits is no byte: its second character is not `x`. -/
theorem readByte_of_digits {cs : List Char} (h : cs.all Char.isDigit = true) : readByte cs = none := by
  unfold readByte
  split
  case h_1 hi lo => exact absurd h (by simp)
  case h_2 => rfl

theorem toDigits_all_isDigit (n : Nat) : (Nat.toDigits 10 n).all Char.isDigit = true :=
  List.all_eq_true.mpr fun _ => Nat.isDigit_of_mem_toDigits (by decide) (by decide)

theorem readWord_hexDigits (b : Byte) :
    readWord ['0', 'x', hexDigit (b.toNat / 16), hexDigit (b.toNat % 16)] = some (.byte b) := by
  rw [readWord, readByte_hexDigits]

theorem readWord_toDigits (n : Nat) : readWord (Nat.toDigits 10 n) = some (.num n) := by
  have hdigits := toDigits_all_isDigit n
  rw [readWord, readByte_of_digits hdigits, readNat, if_pos ⟨Nat.toDigits_ne_nil, hdigits⟩,
    Nat.ofDigitChars_ten_toDigits]

theorem readWord_regLabel : ∀ e ∈ regLabels, readWord e.1.toList = some (.label e.2) := by decide

/-- The tokens `ts` are read as the operand `o` wherever an operand may stand, whatever follows them. -/
def Spells (ts : List Token) (o : Operand) : Prop :=
  ∀ (st : OperandState) (acc : List Operand) (rest : List Token), st = .first ∨ st = .operand →
    readOperands st acc (ts ++ rest) = readOperands .after (acc ++ [o]) rest

theorem spells_word {cs : List Char} {o : Operand} (h : readWord cs = some o) : Spells [.word cs] o := by
  rintro st acc rest (rfl | rfl) <;> simp only [List.singleton_append, readOperands, h]

theorem spells_byteWord (b : Byte) : Spells [byteWord b] (.byte b) := spells_word (readWord_hexDigits b)

theorem spells_natWord (n : Nat) : Spells [natWord n] (.num n) := spells_word (readWord_toDigits n)

/-- The bytes of a list after those already read, up to the end of the list. -/
theorem readOperands_moreBytes (d d' : List Byte) (acc : List Operand) (rest : List Token) :
    readOperands (.listAfter d) acc (moreBytes d' ++ .close :: rest) =
      readOperands .after (acc ++ [.bytes (d ++ d')]) rest := by
  induction d' generalizing d with
  | nil => rw [List.append_nil]; rfl
  | cons b d' ih =>
    simp only [moreBytes, byteWord, List.cons_append, readOperands, readByte_hexDigits]
    rw [ih, List.append_assoc, List.singleton_append]

theorem spells_bytesTokens (d : List Byte) : Spells (bytesTokens d) (.bytes d) := by
  rintro st acc rest hst
  cases d with
  | nil => obtain rfl | rfl := hst <;> rfl
  | cons b d =>
    have hrest : bytesTokens (b :: d) ++ rest = .open :: byteWord b :: (moreBytes d ++ .close :: rest) := by
      simp [bytesTokens]
    have hread := readOperands_moreBytes [b] d acc rest
    rw [hrest]
    obtain rfl | rfl := hst <;> simpa only [byteWord, readOperands, readByte_hexDigits, List.singleton_append] using hread

/-- A request with one operand. -/
theorem parseTokens_one (p : Params) (m : String) {ts : List Token} {o : Operand} (h : Spells ts o) :
    parseTokens p (mnemonicWord m :: ts) = assemble p m.toList [o] := by
  have hread := h .first [] [] (.inl rfl)
  rw [List.append_nil] at hread
  rw [mnemonicWord, parseTokens, hread]
  rfl

/-- A request with two operands, a comma between them. -/
theorem parseTokens_two (p : Params) (m : String) {ts ts' : List Token} {o o' : Operand} (h : Spells ts o)
    (h' : Spells ts' o') :
    parseTokens p (mnemonicWord m :: (ts ++ .comma :: ts')) = assemble p m.toList [o, o'] := by
  have hread := h' .operand [o] [] (.inr rfl)
  rw [List.append_nil] at hread
  rw [mnemonicWord, parseTokens, h .first [] _ (.inl rfl), readOperands, List.nil_append, hread]
  rfl

theorem requestTokens_isSome (i : Instr) : (requestTokens i).isSome = i.isRequest := by
  cases i <;> rfl

/-- The tokens of a request are read as the request. -/
theorem parseTokens_requestTokens (p : Params) {i : Instr} {ts : List Token} (h : requestTokens i = some ts) :
    parseTokens p ts = some i := by
  cases i with
  | wRreg | wWreg | wRRxPlWid | wRRxPayload | wWTxPayload | wFlushTx | wFlushRx => cases h
  | csnLow | csnHigh | flushTx | flushRx | readPlWid | ceHigh | ceLow | cePulse => cases h; rfl
  | xfer b => cases h; exact parseTokens_one p "XFER" (spells_byteWord b)
  | xferN d r =>
    cases h
    refine (parseTokens_two p "XFER_N" (spells_bytesTokens d) (spells_natWord _)).trans ?_
    cases r <;> rfl
  | readReg a n => cases h; exact parseTokens_two p "READ_REG" (spells_byteWord a) (spells_natWord n)
  | writeReg a d => cases h; exact parseTokens_two p "WRITE_REG" (spells_byteWord a) (spells_bytesTokens d)
  | readPayload n => cases h; exact parseTokens_one p "READ_PAYLOAD" (spells_natWord n)
  | writePayload d => cases h; exact parseTokens_one p "WRITE_PAYLOAD" (spells_bytesTokens d)

/-- Settles O59: the requests are the instructions that have tokens, and each is read from its mnemonic and operands. -/
theorem writtenRequestsReadBack : Obligations.WrittenRequestsReadBack := fun p i =>
  ⟨requestTokens_isSome i, fun _ => parseTokens_requestTokens p⟩

end Sys2Proof.Machine
end

section
/-! SUPPORT. Reading back the text of a program: the lexer on written tokens, a line, the lines (spec 30 R62, R63; log
entry 21). -/

namespace Sys2Proof.Machine

/-- The characters of a word that the lexer reads as one token. -/
def plainWord (cs : List Char) : Bool := !cs.isEmpty && cs.all plainChar

/-- Tokens that the lexer tells apart when written one after the other: the words are plain and no two stand side by side;
`afterWord` says whether a word stands before them. -/
def lexable : Bool → List Token → Bool
  | _, [] => true
  | afterWord, .word cs :: ts => !afterWord && plainWord cs && lexable true ts
  | _, .comma :: ts => lexable false ts
  | _, .open :: ts => lexable false ts
  | _, .close :: ts => lexable false ts

theorem flushWord_reverse {cs : List Char} (h : plainWord cs = true) : flushWord cs.reverse = [.word cs] := by
  cases hcs : cs.reverse with
  | nil => rw [List.reverse_eq_nil_iff.mp hcs] at h; cases h
  | cons c cs' => rw [flushWord, ← hcs, List.reverse_reverse]

theorem plainWord_all {cs : List Char} (h : plainWord cs = true) : cs.all plainChar = true :=
  (Bool.and_eq_true_iff.mp h).2

/-- The lexer reads a plain word up to what follows it. -/
theorem lexLine_plainWord {cs : List Char} (h : plainWord cs = true) (rest : List Char) :
    lexLine [] (cs ++ rest) = lexLine cs.reverse rest := by
  rw [lexLine_word cs rest [] (plainWord_all h), List.append_nil]

/-- The lexer reads back the tokens written, after the word collected so far. -/
theorem lexLine_tokensText {ts : List Token} {acc : List Char} (h : lexable (!acc.isEmpty) ts = true) :
    lexLine acc (tokensText ts) = flushWord acc ++ ts := by
  induction ts generalizing acc with
  | nil => exact (List.append_nil _).symm
  | cons t ts ih =>
    have hrest (hts : lexable false ts = true) : lexLine [] (tokensText ts) = ts := ih hts
    have htext : tokensText (t :: ts) = tokenText t ++ tokensText ts := rfl
    rw [htext]
    cases t with
    | word cs =>
      simp only [lexable, Bool.and_eq_true, Bool.not_eq_true', Bool.not_eq_false', List.isEmpty_iff] at h
      obtain ⟨⟨rfl, hcs⟩, hts⟩ := h
      have hne : (!cs.reverse.isEmpty) = true := by simpa using (Bool.and_eq_true_iff.mp hcs).1
      rw [tokenText, lexLine_plainWord hcs, ih (hne ▸ hts), flushWord_reverse hcs]
      rfl
    | comma => simp [tokenText, lexLine, flushWord, hrest h]
    | close => simp [tokenText, lexLine, braceOpen, braceClose, hrest h]
    | _ => -- the sign that begins a byte list
      simp [tokenText, lexLine, braceOpen, hrest h]

theorem plainWord_noNewline {cs : List Char} (h : plainWord cs = true) : '\n' ∉ cs := fun hmem =>
  absurd (List.all_eq_true.mp (plainWord_all h) _ hmem) (by decide)

theorem tokensText_noNewline {afterWord : Bool} {ts : List Token} (h : lexable afterWord ts = true) :
    '\n' ∉ tokensText ts := by
  induction ts generalizing afterWord with
  | nil => exact List.not_mem_nil
  | cons t ts ih =>
    have htext : tokensText (t :: ts) = tokenText t ++ tokensText ts := rfl
    rw [htext, List.mem_append, not_or]
    cases t with
    | word cs =>
      simp only [lexable, Bool.and_eq_true] at h
      obtain ⟨⟨-, hcs⟩, hts⟩ := h
      exact ⟨plainWord_noNewline hcs, ih hts⟩
    | _ => -- the three signs
      exact ⟨by decide, ih h⟩

/-- The tokens `ts`, written as a line, are one line and are read back. -/
structure ReadsAsLine (ts : List Token) : Prop where
  lexes : lexLine [] (lineText ts) = ts
  noNewline : '\n' ∉ lineText ts

theorem readsAsLine_mnemonic {m : String} {ts : List Token} (hm : plainWord m.toList = true)
    (hts : lexable false ts = true) : ReadsAsLine (mnemonicWord m :: ts) where
  lexes := by
    have hrest : lexLine [] (tokensText ts) = ts := lexLine_tokensText (acc := []) hts
    rw [mnemonicWord, lineText, tokenText, lexLine_plainWord hm]
    simp [lexLine, flushWord_reverse hm, hrest]
  noNewline := by
    simp [lineText, mnemonicWord, tokenText, plainWord_noNewline hm, tokensText_noNewline hts]

/-- The first line of a program. -/
theorem parseProgram_readsAsLine (p : Params) {t : Token} {ts : List Token} (h : ReadsAsLine (t :: ts))
    (rest : List Char) :
    parseProgram p (lineText (t :: ts) ++ '\n' :: rest) =
      (parseTokens p (t :: ts)).bind fun i => (parseProgram p rest).map (i :: ·) := by
  rw [parseProgram_line p _ rest h.noNewline, h.lexes]

/-- A program of one line. -/
theorem parseProgram_of_line {p : Params} {t : Token} {ts : List Token} {i : Instr} (h : ReadsAsLine (t :: ts))
    (hp : parseTokens p (t :: ts) = some i) : parseProgram p (lineText (t :: ts)) = some [i] := by
  rw [parseProgram, splitLines_last _ _ h.noNewline, List.reverse_nil, List.nil_append, parseLines, h.lexes]
  simp [hp, parseLines]

theorem plainWord_hexDigits (b : Byte) :
    plainWord ['0', 'x', hexDigit (b.toNat / 16), hexDigit (b.toNat % 16)] = true := by
  have hplain : ∀ n < 16, plainChar (hexDigit n) = true := by decide
  have hzero : plainChar '0' = true := by decide
  have hx : plainChar 'x' = true := by decide
  simp [plainWord, hzero, hx, hplain _ (show b.toNat / 16 < 16 by omega), hplain _ (show b.toNat % 16 < 16 by omega)]

theorem plainChar_of_isDigit {c : Char} (h : c.isDigit = true) : plainChar c = true := by
  rw [Char.isDigit_iff_toNat] at h
  have hne (c' : Char) (hc' : c'.toNat < 48 ∨ 57 < c'.toNat) : (c == c') = false := by
    rw [beq_eq_false_iff_ne]
    rintro rfl
    simp at h
    omega
  simp [plainChar, hne ';' (by decide), hne ' ' (by decide), hne '\t' (by decide), hne '\r' (by decide),
    hne ',' (by decide), hne braceOpen (by decide), hne braceClose (by decide), hne '\n' (by decide)]

theorem plainWord_toDigits (n : Nat) : plainWord (Nat.toDigits 10 n) = true := by
  have hdigits := List.all_eq_true.mp (toDigits_all_isDigit n)
  simp only [plainWord, Bool.and_eq_true, List.all_eq_true]
  exact ⟨by simp [Nat.toDigits_ne_nil], fun c hc => plainChar_of_isDigit (hdigits c hc)⟩

theorem plainWord_regLabel : ∀ e ∈ regLabels, plainWord e.1.toList = true := by decide

@[simp] theorem lexable_nil (afterWord : Bool) : lexable afterWord [] = true := rfl

@[simp] theorem lexable_comma (afterWord : Bool) (ts : List Token) :
    lexable afterWord (.comma :: ts) = lexable false ts := rfl

theorem lexable_word {cs : List Char} (h : plainWord cs = true) (ts : List Token) :
    lexable false (.word cs :: ts) = lexable true ts := by
  rw [lexable, h]; rfl

@[simp] theorem lexable_byteWord (b : Byte) (ts : List Token) : lexable false (byteWord b :: ts) = lexable true ts :=
  lexable_word (plainWord_hexDigits b) ts

@[simp] theorem lexable_natWord (n : Nat) (ts : List Token) : lexable false (natWord n :: ts) = lexable true ts :=
  lexable_word (plainWord_toDigits n) ts

theorem lexable_moreBytes (d : List Byte) (ts : List Token) :
    lexable true (moreBytes d ++ .close :: ts) = lexable false ts := by
  induction d with
  | nil => rfl
  | cons b d ih => simp [moreBytes, ih]

@[simp] theorem lexable_bytesTokens (d : List Byte) (ts : List Token) :
    lexable false (bytesTokens d ++ ts) = lexable false ts := by
  cases d with
  | nil => rfl
  | cons b d =>
    have hopen : bytesTokens (b :: d) ++ ts = .open :: byteWord b :: (moreBytes d ++ .close :: ts) := by
      simp [bytesTokens]
    rw [hopen, lexable, lexable_byteWord, lexable_moreBytes]

@[simp] theorem lexable_bytesTokens_last (d : List Byte) : lexable false (bytesTokens d) = true := by
  rw [← List.append_nil (bytesTokens d), lexable_bytesTokens, lexable_nil]

/-- The line of a request is read back as its tokens. -/
theorem requestTokens_readsAsLine {i : Instr} {ts : List Token} (h : requestTokens i = some ts) :
    ∃ m ts', ts = mnemonicWord m :: ts' ∧ ReadsAsLine ts := by
  cases i with
  | wRreg | wWreg | wRRxPlWid | wRRxPayload | wWTxPayload | wFlushTx | wFlushRx => cases h
  | csnLow | csnHigh | xfer | xferN | readReg | writeReg | flushTx | flushRx | readPlWid | readPayload | writePayload
  | ceHigh | ceLow | cePulse =>
    cases h
    exact ⟨_, _, rfl, readsAsLine_mnemonic (by decide) (by simp)⟩

/-- The text of a list of requests, one a line, is read as the list. -/
theorem parseProgram_programText (p : Params) {l : List Instr} (h : ∀ i ∈ l, i.isRequest = true) :
    ∃ text, programText l = some text ∧ parseProgram p text = some l := by
  induction l with
  | nil => exact ⟨[], rfl, rfl⟩
  | cons i l ih =>
    obtain ⟨hi, hl⟩ := List.forall_mem_cons.mp h
    obtain ⟨text, htext, hparse⟩ := ih hl
    obtain ⟨ts, hts⟩ := Option.isSome_iff_exists.mp ((requestTokens_isSome i).trans hi)
    obtain ⟨m, ts', rfl, hline⟩ := requestTokens_readsAsLine hts
    refine ⟨_, by rw [programText, hts, htext]; rfl, ?_⟩
    rw [parseProgram_readsAsLine p hline, parseTokens_requestTokens p hts, hparse]
    rfl

theorem parseProgram_comment (p : Params) {line comment : List Char} (rest : List Char) (hline : '\n' ∉ line)
    (hcomment : '\n' ∉ comment) :
    parseProgram p (line ++ ';' :: comment ++ '\n' :: rest) = parseProgram p (line ++ '\n' :: rest) := by
  have hboth : '\n' ∉ line ++ ';' :: comment := by simp [hline, hcomment]
  rw [parseProgram_line p _ rest hboth, parseProgram_line p _ rest hline, lexLine_comment]

theorem parseProgram_readReg_label (p : Params) {e : String × RegName} (he : e ∈ regLabels) (n : Nat) :
    parseProgram p (lineText [mnemonicWord "READ_REG", .word e.1.toList, .comma, natWord n]) =
      some [.readReg (labelAddr p e.2) n] :=
  parseProgram_of_line (readsAsLine_mnemonic (by decide) (by simp [lexable_word (plainWord_regLabel e he)]))
    (parseTokens_two p "READ_REG" (spells_word (readWord_regLabel e he)) (spells_natWord n))

theorem parseProgram_writeReg_label (p : Params) {e : String × RegName} (he : e ∈ regLabels) (d : List Byte) :
    parseProgram p (lineText ([mnemonicWord "WRITE_REG", .word e.1.toList, .comma] ++ bytesTokens d)) =
      some [.writeReg (labelAddr p e.2) d] :=
  parseProgram_of_line (readsAsLine_mnemonic (by decide) (by simp [lexable_word (plainWord_regLabel e he)]))
    (parseTokens_two p "WRITE_REG" (spells_word (readWord_regLabel e he)) (spells_bytesTokens d))

/-- Settles O60, by induction on the requests: a line is read back as its tokens, and its tokens as the request. -/
theorem programTextReadsBack : Obligations.ProgramTextReadsBack := fun p =>
  ⟨fun _ => parseProgram_programText p,
    fun _ _ rest hline hcomment => parseProgram_comment p rest hline hcomment,
    fun _ he n d => ⟨parseProgram_readReg_label p he n, parseProgram_writeReg_label p he d⟩,
    fun a v => ⟨rfl,
      parseProgram_of_line (readsAsLine_mnemonic (by decide) (by simp))
        (parseTokens_one p "CLEAR_STATUS" (spells_byteWord v)),
      parseProgram_of_line (readsAsLine_mnemonic (by decide) (by simp))
        (parseTokens_two p "WRITE_REG1" (spells_byteWord a) (spells_byteWord v))⟩⟩

end Sys2Proof.Machine
end

section
/-! SUPPORT. The requests of the shift engine in closed form (spec 40 R66 to R69), and the refusals they share with all
others (60 R103, R104). -/

namespace Sys2Proof.Machine

theorem refusedUnlessIdle (i : Instr) (s : State) : RefusedUnlessIdle i s := fun hidle => by
  rw [exec_eq_perform]
  exact perform_of_refused _ _ (by rw [refusalOf, if_pos hidle])

theorem refusedWhenTooLong (i : Instr) (s : State) : RefusedWhenTooLong i i.len s := fun hidle hwf hlen => by
  rw [exec_eq_perform]
  exact perform_of_refused _ _ (by simp [refusalOf, hidle, hwf, hlen])

/-- A raw request is accepted whatever level chip-select has (60 R103). -/
theorem exec_of_raw {i : Instr} {s : State} (hraw : i.sequenced = false) (hidle : s.phase = .idle)
    (hwf : s.params.wf = true) (hlen : i.len ≤ s.params.maxLen) :
    exec i s = .next (deliver (instrReply i) (runMicros (instrMicros s i) { st := s, buf := [] })) :=
  exec_of_accepted (refusalOf_eq_none.mpr ⟨hidle, hwf, hlen, fun hseq => absurd hseq (by rw [hraw]; decide)⟩)

/-- The request that drives chip-select to `b` through phase `p`, from `IDLE`. -/
theorem deliver_driveCsn (p : Phase) (b : Level) {s : State} (hidle : s.phase = .idle) :
    deliver replyNone (runMicros [.phase p, .drive .csn b, .phase .idle] { st := s, buf := [] }) = s.afterCsn b := by
  by_cases hcsn : s.csn = b <;>
    simp [Micro.run, drive, driveCsn, deliver, replyNone, State.afterCsn, hcsn, hidle]

/-- `CSN_LOW` (40 R66). -/
theorem exec_csnLow {s : State} (hidle : s.phase = .idle) (hwf : s.params.wf = true) :
    exec .csnLow s = .next (s.afterCsn false) :=
  (exec_of_raw (i := .csnLow) rfl hidle hwf (Nat.zero_le _)).trans (congrArg _ (deliver_driveCsn .select false hidle))

/-- `CSN_HIGH` (40 R67). -/
theorem exec_csnHigh {s : State} (hidle : s.phase = .idle) (hwf : s.params.wf = true) :
    exec .csnHigh s = .next (s.afterCsn true) :=
  (exec_of_raw (i := .csnHigh) rfl hidle hwf (Nat.zero_le _)).trans (congrArg _ (deliver_driveCsn .release true hidle))

/-- The state in which a request that transfers the bytes `os` and returns those that arrive leaves the block (40 R68,
R69). -/
def State.afterTransfer (s : State) (os : List Byte) : State :=
  { s.afterBytes os with results := s.results ++ [{ status := none, data := some (s.inBytes 0 os.length) }] }

/-- The delivered transfer of `os`. -/
theorem deliver_transfer (os : List Byte) {s : State} (hidle : s.phase = .idle) :
    deliver replyData { st := { s.afterBytes os with phase := .idle }, buf := s.inBytes 0 os.length } =
      s.afterTransfer os := by
  rw [State.afterTransfer, deliver, replyData, afterBytes_results, ← hidle, ← afterBytes_phase s os]

/-- `XFER` (40 R68) transfers its one byte. -/
theorem exec_xfer (b : Byte) {s : State} (hs : s.ready) : exec (.xfer b) s = .next (s.afterTransfer [b]) := by
  obtain ⟨hidle, hwf, hsck⟩ := hs
  rw [exec_of_raw (i := .xfer b) rfl hidle hwf (Nat.zero_le _), ← deliver_transfer [b] hidle,
    ← runMicros_xferMicros b hsck]
  rfl

/-- `XFER_N` (40 R69) transfers its bytes, on either path. -/
theorem exec_xferN (d : List Byte) (r : Level) {s : State} (hs : s.ready) (hlen : d.length ≤ s.params.maxLen) :
    exec (.xferN d r) s = .next (s.afterTransfer d) := by
  obtain ⟨hidle, hwf, hsck⟩ := hs
  rw [exec_of_raw (i := .xferN d r) rfl hidle hwf hlen, ← deliver_transfer d hidle,
    ← runMicros_xferNMicros d r hidle hsck]
  rfl

/-- The block is ready again after a transfer. -/
theorem State.ready.afterTransfer {s : State} (hs : s.ready) (os : List Byte) : (s.afterTransfer os).ready := by
  obtain ⟨hidle, hwf, hsck⟩ := hs
  exact ⟨(afterBytes_phase s os).trans hidle, (congrArg Params.wf (afterBytes_params s os)).trans hwf,
    (afterBytes_sck s os).trans hsck⟩

/-- A transfer neither reads nor writes the results. -/
theorem afterBytes_with_results (s : State) (rs : List Result) (os : List Byte) :
    ({ s with results := rs } : State).afterBytes os = { s.afterBytes os with results := rs } := by
  unfold State.afterBytes; split <;> rfl

/-- Transferring `b` and then `d` is transferring `b :: d`, with a result each. -/
theorem afterTransfer_afterTransfer (s : State) (b : Byte) (d : List Byte) :
    (s.afterTransfer [b]).afterTransfer d =
      { s.afterBytes (b :: d) with
        results := s.results ++ [{ status := none, data := some [s.inByte 0] },
          { status := none, data := some (s.inBytes 1 d.length) }] } := by
  have hin : (s.afterTransfer [b]).inBytes 0 d.length = s.inBytes 1 d.length :=
    inBytes_drop (j := 1) rfl rfl 0 d.length
  have hresults : (s.afterTransfer [b]).results = s.results ++ [{ status := none, data := some [s.inByte 0] }] := rfl
  rw [State.afterTransfer, hin, hresults, State.afterTransfer, afterBytes_with_results, ← afterBytes_cons,
    List.append_assoc]
  rfl

/-- Settles O17: the transfer of the one byte. -/
theorem xferTransfersOneByte : Obligations.XferTransfersOneByte := by
  intro b s hs
  have hevents : bytesEvents [b] (s.inBytes 0 1) = byteEvents b (s.inByte 0) := List.append_nil _
  rw [exec_xfer b hs, ← hevents]
  rfl

/-- Settles O19: results, `SHI` and samples of the transfer are those of the levels that arrive. -/
theorem xferResultIgnoresTheByteSent : Obligations.XferResultIgnoresTheByteSent := by
  intro b b' s hs
  have hsamples (o : Byte) : sampledLevels (s.afterTransfer [o]).trace =
      sampledLevels s.trace ++ bitsMsbFirst (s.inByte 0) := by
    rw [State.afterTransfer, afterBytes_trace, sampledLevels_append]
    rfl
  exact ⟨_, _, exec_xfer b hs, exec_xfer b' hs, rfl, rfl, (hsamples b).trans (hsamples b').symm⟩

/-- Settles O21: one transfer after the other, which is one transfer but for the results. -/
theorem xferNIsXferByteByByte : Obligations.XferNIsXferByteByByte := by
  intro b d r s hs hlen
  have hlen' : d.length ≤ (s.afterTransfer [b]).params.maxLen := Nat.le_of_succ_le hlen
  exact ⟨_, _, _, exec_xferN (b :: d) r hs hlen, exec_xfer b hs, exec_xferN d r (hs.afterTransfer [b]) hlen',
    by rw [afterTransfer_afterTransfer]; rfl⟩

/-- Settles O22: the request drives chip-select low. -/
theorem csnLowAssertsChipSelect : Obligations.CsnLowAssertsChipSelect := by
  intro s
  refine ⟨fun hidle hwf => ?_, rfl, refusedUnlessIdle .csnLow s⟩
  rw [exec_csnLow hidle hwf]
  cases hcsn : s.csn <;> simp [State.afterCsn, hcsn]

/-- Settles O23: the request drives chip-select high. -/
theorem csnHighReleasesChipSelect : Obligations.CsnHighReleasesChipSelect := by
  intro s
  refine ⟨fun hidle hwf => ?_, rfl, refusedUnlessIdle .csnHigh s⟩
  rw [exec_csnHigh hidle hwf]
  cases hcsn : s.csn <;> simp [State.afterCsn, hcsn]

end Sys2Proof.Machine
end

section
/-! SUPPORT. Framing by hand against the sequenced command (spec 95 V43). -/

namespace Sys2Proof.Machine

@[simp] theorem inByte_afterCsn (s : State) (b : Level) (k : Nat) : (s.afterCsn b).inByte k = s.inByte k := rfl

@[simp] theorem inBytes_afterCsn (s : State) (b : Level) (k n : Nat) : (s.afterCsn b).inBytes k n = s.inBytes k n := rfl

/-- Chip-select low, the command byte, the data bytes and chip-select high leave the block as the frame does (42 R75), but
for `STAT` and the results. -/
theorem raw_frame_eq_afterFrame {s : State} (hcsn : s.csn = true) (c : Byte) (d : List Byte) (res : Result) :
    (((s.afterCsn false).afterTransfer [c]).afterTransfer d).afterCsn true =
      { s.afterFrame c d res with
        stat := s.stat
        results := s.results ++ [{ status := none, data := none }, { status := none, data := some [s.inByte 0] },
          { status := none, data := some (s.inBytes 1 d.length) }, { status := none, data := none }] } := by
  have hlast : (c :: d).getLast? = some (d.getLastD c) := by rw [List.getLast?_cons, List.getLastD_eq_getLast?]
  rw [afterTransfer_afterTransfer, afterBytes_of_getLast _ hlast]
  simp only [inByte_afterCsn, inBytes_afterCsn]
  simp [State.afterCsn, State.afterFrame, frameEvents, hcsn]

/-- Settles O40: the four raw requests leave the block as the frame of `READ_REG` does, by `raw_frame_eq_afterFrame`. -/
theorem rawFramingEqualsSequencedFraming : Obligations.RawFramingEqualsSequencedFraming := by
  intro a n s hs hcsn hn
  have ⟨hidle, hwf, hsck⟩ := hs
  have hread : exec (.readReg a n) s = _ :=
    readFrame_eq (readCommand s.params (effAddr a)) n (refusalOf_eq_none.mpr ⟨hidle, hwf, hn, fun _ => hcsn⟩) hsck
  have hdummies : (dummies s.params n).length = n := List.length_replicate
  have hready1 : (s.afterCsn false).ready := hs
  have hready2 := hready1.afterTransfer [readCommand s.params (effAddr a)]
  obtain ⟨hidle3, hwf3, -⟩ := hready2.afterTransfer (dummies s.params n)
  refine ⟨_, _, _, _, _, hread, exec_csnLow hidle hwf, exec_xfer _ hready1,
    exec_xferN _ true hready2 (Nat.le_trans (Nat.le_of_eq hdummies) hn), exec_csnHigh hidle3 hwf3, ?_⟩
  rw [raw_frame_eq_afterFrame hcsn _ _ { status := some (s.inByte 0), data := some (s.inBytes 1 n) }, hdummies]
  exact ⟨rfl, rfl, rfl, rfl, rfl, rfl, rfl, rfl, rfl, rfl, rfl, rfl, rfl, rfl, rfl⟩

end Sys2Proof.Machine
end

section
/-! SUPPORT. The settle points and the outline of a data phase (spec 40 R69, 42 R75; decision D10). -/

namespace Sys2Proof.Machine

@[simp] theorem settlePoints_append (l m : List Micro) : settlePoints (l ++ m) = settlePoints l + settlePoints m :=
  List.countP_append

@[simp] theorem settlePoints_byteMicros (b : Byte) : settlePoints (byteMicros b) = 0 := rfl

@[simp] theorem settlePoints_settlePoint (r : Level) (k : Nat) :
    settlePoints (settlePoint r k) = if r ∧ 0 < k then 1 else 0 := by
  unfold settlePoint; split <;> rfl

/-- After the first byte of a data phase each byte of the read path has its settle point. -/
theorem settlePoints_dataMicrosFrom (r : Level) (n : Nat) {k : Nat} (hk : 0 < k) (d : List Byte) :
    settlePoints (dataMicrosFrom r n k d) = if r then d.length else 0 := by
  induction d generalizing k with
  | nil => cases r <;> rfl
  | cons b d ih =>
    simp only [dataMicrosFrom, settlePoints_append, settlePoints_settlePoint, settlePoints_byteMicros,
      ih (Nat.succ_pos k), hk]
    cases r <;> simp [settlePoints, Nat.add_comm]

/-- The first byte has none (decision D10). -/
theorem settlePoints_xferNMicros (d : List Byte) (r : Level) :
    settlePoints (xferNMicros d r) = if r then d.length - 1 else 0 := by
  cases d with
  | nil => cases r <;> rfl
  | cons b d =>
    simp only [xferNMicros, dataMicros, dataMicrosFrom, settlePoints_append, settlePoints_settlePoint,
      settlePoints_byteMicros, settlePoints_dataMicrosFrom r _ Nat.one_pos]
    cases r <;> simp [settlePoints]

/-- Settles O20: one transfer of the bytes, the settle points counted, and the refusals every request shares. -/
theorem xferNTransfersTheBytes : Obligations.XferNTransfersTheBytes := fun d r s =>
  ⟨exec_xferN d r, settlePoints_xferNMicros d r, refusedWhenTooLong (.xferN d r) s, refusedUnlessIdle (.xferN d r) s⟩

@[simp] theorem outline_append (l m : List Micro) : outline (l ++ m) = outline l ++ outline m := List.filter_append ..

/-- Of a byte the outline has its beginning. -/
@[simp] theorem outline_byteMicros (b : Byte) : outline (byteMicros b) = [.loadSho b] := rfl

@[simp] theorem outline_settlePoint (r : Level) (k : Nat) : outline (settlePoint r k) = settlePoint r k := by
  unfold settlePoint; split <;> rfl

/-- The outline of data byte `k` of `n`: its phase, its settle point, the byte, the byte received kept. -/
def dataOutline (r : Level) (n k : Nat) (b : Byte) : List Micro :=
  [.phase (.data k n)] ++ settlePoint r k ++ [.loadSho b, .keep]

/-- The outline of a data phase from byte `k` on is that of its bytes in order. -/
theorem outline_dataMicrosFrom (r : Level) (n k : Nat) (d : List Byte) :
    outline (dataMicrosFrom r n k d) = (d.mapIdx fun j => dataOutline r n (k + j)).flatten := by
  induction d generalizing k with
  | nil => rfl
  | cons b d ih =>
    have hrest : (fun j => dataOutline r n (k + 1 + j)) = fun j => dataOutline r n (k + (j + 1)) := by
      funext j; rw [Nat.add_assoc, Nat.add_comm 1]
    simp only [dataMicrosFrom, outline_append, outline_settlePoint, outline_byteMicros, ih, hrest, List.mapIdx_cons,
      List.flatten_cons, dataOutline, Nat.add_zero, List.append_assoc]
    rfl

theorem outline_dataMicros (r : Level) (d : List Byte) :
    outline (dataMicros r d) = (d.mapIdx fun k => dataOutline r d.length k).flatten := by
  simp only [dataMicros, outline_dataMicrosFrom, Nat.zero_add]

/-- Settles O41: a frame and `XFER_N` are the outline of their data phase between micro-steps that stand in the outline
themselves. -/
theorem settlePointsStandBetweenReadBytes : Obligations.SettlePointsStandBetweenReadBytes := by
  intro c d r data
  have hdata : outline (dataMicros r d) = data := outline_dataMicros r d
  constructor
  · simp only [frameMicros, outline_append, outline_byteMicros, hdata]
    rfl
  · cases d with
    | nil => rfl
    | cons b d => rw [xferNMicros, outline_append, hdata]; rfl

end Sys2Proof.Machine
end

section
/-! SUPPORT. The chip-enable requests in closed form, and who writes chip-enable (spec 41 R70 to R73). -/

namespace Sys2Proof.Machine

/-- The edge of driving chip-enable from level `a` to level `b`, none when the level stays (00 R10). -/
def ceEdge (a b : Level) : List Event := if a = b then [] else [if b then .ceUp else .ceDown]

/-- The edges of `CE_PULSE` from level `ce`, in the variant `minimize` or not (41 R73). -/
def cePulseEdges (ce minimize : Bool) : List Event :=
  (if ce then [.ceDown] else []) ++ [.ceUp] ++ (if minimize then [.ceDown] else [])

/-- Driving chip-enable has no event of another line. -/
theorem ceEdge_off_ce (a b : Level) : (ceEdge a b).filter (fun e => !e.isCe) = [] := by
  cases a <;> cases b <;> rfl

theorem cePulseEdges_off_ce (ce minimize : Bool) : (cePulseEdges ce minimize).filter (fun e => !e.isCe) = [] := by
  cases ce <;> cases minimize <;> rfl

/-- `CE_HIGH` and `CE_LOW` delivered, from `IDLE` (41 R71, R72). -/
theorem deliver_ceMicros (b : Level) {s : State} (hidle : s.phase = .idle) :
    deliver replyNone (runMicros (ceMicros b) { st := s, buf := [] }) = s.afterCe b (ceEdge s.ce b) := by
  by_cases hce : s.ce = b <;>
    simp [ceMicros, Micro.run, drive, driveCe, deliver, replyNone, State.afterCe, ceEdge, hce, hidle]

/-- `CE_PULSE` delivered, from `IDLE`: the four traces of 41 R73. -/
theorem deliver_cePulseMicros {s : State} (hidle : s.phase = .idle) :
    deliver replyNone (runMicros (cePulseMicros s.ce s.params.minimizeCurrent) { st := s, buf := [] }) =
      s.afterCe (!s.params.minimizeCurrent) (cePulseEdges s.ce s.params.minimizeCurrent) := by
  cases hce : s.ce <;> cases hmin : s.params.minimizeCurrent <;>
    simp [cePulseMicros, Micro.run, drive, driveCe, deliver, replyNone, State.afterCe, cePulseEdges, hce, hidle]

/-- `CE_HIGH` (41 R71). -/
theorem exec_ceHigh {s : State} (hidle : s.phase = .idle) (hwf : s.params.wf = true) :
    exec .ceHigh s = .next (s.afterCe true (ceEdge s.ce true)) :=
  (exec_of_raw (i := .ceHigh) rfl hidle hwf (Nat.zero_le _)).trans (congrArg _ (deliver_ceMicros true hidle))

/-- `CE_LOW` (41 R72). -/
theorem exec_ceLow {s : State} (hidle : s.phase = .idle) (hwf : s.params.wf = true) :
    exec .ceLow s = .next (s.afterCe false (ceEdge s.ce false)) :=
  (exec_of_raw (i := .ceLow) rfl hidle hwf (Nat.zero_le _)).trans (congrArg _ (deliver_ceMicros false hidle))

/-- `CE_PULSE` (41 R73). -/
theorem exec_cePulse {s : State} (hidle : s.phase = .idle) (hwf : s.params.wf = true) :
    exec .cePulse s = .next (s.afterCe (!s.params.minimizeCurrent) (cePulseEdges s.ce s.params.minimizeCurrent)) :=
  (exec_of_raw (i := .cePulse) rfl hidle hwf (Nat.zero_le _)).trans (congrArg _ (deliver_cePulseMicros hidle))

/-- A chip-enable request that completes leaves chip-enable at some level after edges of chip-enable alone. -/
theorem exec_chipEnable_next {i : Instr} {s t : State} (hce : i.chipEnable = true) (h : exec i s = .next t) :
    ∃ b es, t = s.afterCe b es ∧ es.filter (fun e => !e.isCe) = [] := by
  obtain ⟨haccepted, rfl⟩ := exec_next h
  obtain ⟨hidle, -, -, -⟩ := refusalOf_eq_none.mp haccepted
  cases i with
  | ceHigh => exact ⟨_, _, deliver_ceMicros true hidle, ceEdge_off_ce s.ce true⟩
  | ceLow => exact ⟨_, _, deliver_ceMicros false hidle, ceEdge_off_ce s.ce false⟩
  | cePulse => exact ⟨_, _, deliver_cePulseMicros hidle, cePulseEdges_off_ce s.ce s.params.minimizeCurrent⟩
  | wRreg | wWreg | wRRxPlWid | wRRxPayload | wWTxPayload | wFlushTx | wFlushRx | csnLow | csnHigh | xfer | xferN
  | readReg | writeReg | flushTx | flushRx | readPlWid | readPayload | writePayload => exact Bool.noConfusion hce

/-- From `s` to `t` chip-enable is not written: it keeps its level and has no edge. -/
structure LeavesCe (s t : State) : Prop where
  ce : t.ce = s.ce
  edges : t.trace.filter Event.isCe = s.trace.filter Event.isCe

theorem LeavesCe.refl (s : State) : LeavesCe s s := ⟨rfl, rfl⟩

theorem LeavesCe.trans {s t u : State} (h : LeavesCe s t) (g : LeavesCe t u) : LeavesCe s u :=
  ⟨g.ce.trans h.ce, g.edges.trans h.edges⟩

/-- Events of the other lines, and samples, leave chip-enable. -/
theorem LeavesCe.of_append {s t : State} {es : List Event} (hce : t.ce = s.ce) (htrace : t.trace = s.trace ++ es)
    (hes : es.filter Event.isCe = []) : LeavesCe s t :=
  ⟨hce, by rw [htrace, List.filter_append, hes, List.append_nil]⟩

/-- The micro-steps that do not drive chip-enable. -/
def Micro.leavesCe : Micro → Bool
  | .drive .ce _ => false
  | .phase _ | .drive .sck _ | .drive .mosi _ | .drive .csn _ | .loadSho _ | .clearShi | .setBit _ | .driveBit
  | .sampleShift | .captureStat | .keep | .wait _ => true

theorem Micro.run_leavesCe {m : Micro} (h : m.leavesCe = true) (x : Run) : LeavesCe x.st (m.run x).st := by
  cases m with
  | drive l b =>
    cases l with
    | sck => exact .of_append (driveSck_ce b x.st) (driveSck_trace b x.st) (by cases b <;> split <;> rfl)
    | csn => exact .of_append (driveCsn_ce b x.st) (driveCsn_trace b x.st) (by cases b <;> split <;> rfl)
    | mosi => exact ⟨rfl, rfl⟩
    | ce => exact Bool.noConfusion h
  | sampleShift => exact .of_append (sampleShift_ce x.st) (sampleShift_trace x.st) rfl
  | phase | loadSho | clearShi | setBit | driveBit | captureStat | keep | wait => exact ⟨rfl, rfl⟩

theorem runMicros_leavesCe {ms : List Micro} (h : ms.all Micro.leavesCe = true) (x : Run) :
    LeavesCe x.st (runMicros ms x).st := by
  induction ms generalizing x with
  | nil => exact .refl x.st
  | cons m ms ih =>
    obtain ⟨hm, hms⟩ := Bool.and_eq_true_iff.mp h
    exact (m.run_leavesCe hm x).trans (ih hms (m.run x))

theorem byteMicros_leavesCe (b : Byte) : (byteMicros b).all Micro.leavesCe = true := rfl

theorem settlePoint_leavesCe (r : Level) (k : Nat) : (settlePoint r k).all Micro.leavesCe = true := by
  unfold settlePoint; split <;> rfl

theorem dataMicrosFrom_leavesCe (r : Level) (n k : Nat) (d : List Byte) :
    (dataMicrosFrom r n k d).all Micro.leavesCe = true := by
  induction d generalizing k with
  | nil => rfl
  | cons b d ih =>
    simp only [dataMicrosFrom, List.all_append, settlePoint_leavesCe, byteMicros_leavesCe, ih]
    rfl

theorem frameMicros_leavesCe (c : Byte) (d : List Byte) (r : Level) :
    (frameMicros c d r).all Micro.leavesCe = true := by
  simp only [frameMicros, dataMicros, List.all_append, byteMicros_leavesCe, dataMicrosFrom_leavesCe]
  rfl

/-- Only the three chip-enable requests have a micro-step that drives chip-enable (41 R70). -/
theorem instrMicros_leavesCe (s : State) {i : Instr} (hce : i.chipEnable = false) :
    (instrMicros s i).all Micro.leavesCe = true := by
  cases i using cases_sequenced with
  | framed i hseq =>
    obtain ⟨c, d, r, hframe⟩ := instrMicros_of_sequenced s hseq
    exact hframe ▸ frameMicros_leavesCe c d r
  | csnLow | csnHigh | xfer => rfl
  | xferN d r =>
    cases d with
    | nil => rfl
    | cons b d =>
      rw [instrMicros, xferNMicros, List.all_append, dataMicros, dataMicrosFrom_leavesCe]
      rfl
  | ceHigh | ceLow | cePulse => exact Bool.noConfusion hce

/-- Settles O26: the other instructions have no micro-step that drives chip-enable, and the three requests have a closed form
that is `s` but for chip-enable, its edges and the result. -/
theorem chipEnableIsSeparateFromTheBus : Obligations.ChipEnableIsSeparateFromTheBus := by
  intro i s t h
  constructor
  · intro hce
    obtain ⟨-, rfl⟩ := exec_next h
    obtain ⟨hlevel, hedges⟩ := runMicros_leavesCe (instrMicros_leavesCe s hce) { st := s, buf := [] }
    exact ⟨hlevel, hedges⟩
  · intro hce
    obtain ⟨b, es, rfl, hes⟩ := exec_chipEnable_next hce h
    exact ⟨rfl, rfl, rfl, rfl, rfl, rfl, rfl, by rw [afterCe_trace, List.filter_append, hes, List.append_nil]⟩

/-- Settles O24: the requests drive chip-enable high and low. -/
theorem ceHighAndCeLowDriveChipEnable : Obligations.CeHighAndCeLowDriveChipEnable := by
  intro s
  refine ⟨fun hidle hwf => ?_, fun _ => rfl, refusedUnlessIdle .ceHigh s, refusedUnlessIdle .ceLow s⟩
  rw [exec_ceHigh hidle hwf, exec_ceLow hidle hwf]
  cases hce : s.ce <;> exact ⟨rfl, rfl⟩

/-- Settles O25: the request leaves the block as `cePulseEdges` says, whatever the level and the variant. -/
theorem cePulseRaisesChipEnableOnce : Obligations.CePulseRaisesChipEnableOnce := fun s =>
  ⟨exec_cePulse, fun ce minimize => by cases ce <;> cases minimize <;> rfl, refusedUnlessIdle .cePulse s⟩

end Sys2Proof.Machine
end

section
/-! SUPPORT. The sequenced commands in closed form: one frame of the bytes sent, one result, and the refusals (spec 42 R75 to
R84; 60 R103). -/

namespace Sys2Proof.Machine

/-- The result of a sequenced command: the byte that arrives during the command byte and, for the commands that return data,
the bytes that arrive after it (30 R57, 42 R76). -/
def frameResult (s : State) (i : Instr) : Result where
  status := some (s.inByte 0)
  data := if i.returnsData = true then some (s.inBytes 1 i.dataBytes) else none

/-- The bytes a sequenced command sends after its command byte are its data bytes (30 R61). -/
theorem dataBytes_of_sent {p : Params} {i : Instr} {c : Byte} {d : List Byte} (hseq : i.sequenced = true)
    (hsent : i.sent p = c :: d) : d.length = i.dataBytes := by
  cases i with
  | wRreg | wRRxPayload | readReg | readPayload => exact (List.cons.inj hsent).2 ▸ List.length_replicate
  | wWreg | wRRxPlWid | wWTxPayload | wFlushTx | wFlushRx | writeReg | flushTx | flushRx | readPlWid | writePayload =>
    exact (List.cons.inj hsent).2 ▸ rfl
  | csnLow | csnHigh | xfer | xferN | ceHigh | ceLow | cePulse => exact Bool.noConfusion hseq

/-- A sequenced command that is accepted performs the frame of the bytes it sends (42 R75) and returns its result. -/
theorem exec_of_sequenced {i : Instr} {s : State} {c : Byte} {d : List Byte} (hseq : i.sequenced = true)
    (hsent : i.sent s.params = c :: d) (hs : s.ready) (hcsn : s.csn = true) (hlen : i.len ≤ s.params.maxLen) :
    exec i s = .next (s.afterFrame c d (frameResult s i)) := by
  obtain ⟨hidle, hwf, hsck⟩ := hs
  obtain ⟨c', d', r, hframe, hsent'⟩ := instrMicros_eq_frame_of_sent s hseq
  obtain ⟨rfl, rfl⟩ := List.cons.inj (hsent'.symm.trans hsent)
  have hdata : d'.length = i.dataBytes := dataBytes_of_sent hseq hsent
  have hreply (x : Run) (hstat : x.st.stat = s.inByte 0) (hbuf : x.buf = s.inBytes 1 d'.length) :
      instrReply i x = frameResult s i := by
    have heta : instrReply i x = ⟨(instrReply i x).status, (instrReply i x).data⟩ := rfl
    rw [heta, instrReply_status, instrReply_data, if_pos hseq, hstat, hbuf, hdata, frameResult]
  rw [exec_of_accepted (refusalOf_eq_none.mpr ⟨hidle, hwf, hlen, fun _ => hcsn⟩), hframe,
    run_frameMicros c' d' r s hidle hsck hcsn (frameResult s i), deliver, hreply _ rfl rfl]
  rfl

theorem refusedInOpenFrame {i : Instr} (hseq : i.sequenced = true) (s : State) : RefusedInOpenFrame i i.len s :=
  fun hidle hwf hlen hcsn => by
    rw [exec_eq_perform]
    exact perform_of_refused _ _ (by simp [refusalOf, hidle, hwf, Nat.not_lt.mpr hlen, hseq, hcsn])

/-- The command byte of `READ_REG` and `WRITE_REG`: the address is masked, not refused (42 R74). -/
theorem regCommand_effAddr (op : BitVec 3) (a : Byte) :
    regCommand op (effAddr a) = (op.setWidth 8 <<< 5) ||| (a &&& 0x1F) := by
  have hmask : (effAddr a).setWidth 8 = a &&& 0x1F := by
    have hle : (a &&& 0x1F).toNat ≤ 31 := by rw [BitVec.toNat_and]; exact Nat.and_le_right
    refine BitVec.eq_of_toNat_eq ?_
    rw [effAddr, BitVec.toNat_setWidth, BitVec.toNat_setWidth]
    omega
  rw [regCommand, hmask]

/-- On the read path the data phase has a settle point between each two bytes, on the write path none (decision D10). -/
theorem settlePoints_dataMicros (r : Level) (d : List Byte) :
    settlePoints (dataMicros r d) = if r then d.length - 1 else 0 := by
  rw [← settlePoints_xferNMicros d r]
  cases d with
  | nil => rfl
  | cons b d => rw [xferNMicros, settlePoints_append]; rfl

/-- A frame has the settle points of its data phase. -/
theorem settlePoints_frameMicros (c : Byte) (d : List Byte) (r : Level) :
    settlePoints (frameMicros c d r) = if r then d.length - 1 else 0 := by
  simp only [frameMicros, settlePoints_append, settlePoints_byteMicros, settlePoints_dataMicros]
  exact Nat.zero_add _

/-- Settles O27: the frame of the masked address and `n` dummy bytes. -/
theorem readRegReturnsStatusAndData : Obligations.ReadRegReturnsStatusAndData := by
  intro a n s
  refine ⟨fun hs hcsn hlen => ?_, refusedWhenTooLong (.readReg a n) s, refusedInOpenFrame (i := .readReg a n) rfl s,
    refusedUnlessIdle (.readReg a n) s⟩
  rw [← regCommand_effAddr]
  exact exec_of_sequenced (i := .readReg a n) rfl rfl hs hcsn hlen

/-- Settles O28: the frame of the masked address and the bytes of `D`, on the write path. -/
theorem writeRegSendsTheBytes : Obligations.WriteRegSendsTheBytes := by
  intro a d s
  refine ⟨fun hs hcsn hlen => ?_, settlePoints_frameMicros _ d false, refusedWhenTooLong (.writeReg a d) s,
    refusedInOpenFrame (i := .writeReg a d) rfl s, refusedUnlessIdle (.writeReg a d) s⟩
  rw [← regCommand_effAddr]
  exact exec_of_sequenced (i := .writeReg a d) rfl rfl hs hcsn hlen

/-- Settles O29: the two frames with no data byte. -/
theorem flushesSendTheCommandByteAlone : Obligations.FlushesSendTheCommandByteAlone := fun s =>
  ⟨fun hs hcsn => ⟨exec_of_sequenced (i := .flushTx) rfl rfl hs hcsn (Nat.zero_le _),
      exec_of_sequenced (i := .flushRx) rfl rfl hs hcsn (Nat.zero_le _)⟩,
    refusedInOpenFrame (i := .flushTx) rfl s, refusedUnlessIdle .flushTx s,
    refusedInOpenFrame (i := .flushRx) rfl s, refusedUnlessIdle .flushRx s⟩

/-- Settles O30: the frame of one dummy byte; the request has no length that `MAXLEN` bounds. -/
theorem readPlWidReturnsOneByte : Obligations.ReadPlWidReturnsOneByte := fun s =>
  ⟨fun hs hcsn => exec_of_sequenced (i := .readPlWid) rfl rfl hs hcsn (Nat.zero_le _),
    refusedInOpenFrame (i := .readPlWid) rfl s, refusedUnlessIdle .readPlWid s⟩

/-- Settles O31: the frame of `n` dummy bytes, on the read path. -/
theorem readPayloadReturnsStatusAndData : Obligations.ReadPayloadReturnsStatusAndData := by
  intro n s
  have hdummies : (dummies s.params n).length = n := List.length_replicate
  have hsettle := settlePoints_frameMicros s.params.codes.cmdRRxPayload (dummies s.params n) true
  rw [hdummies] at hsettle
  exact ⟨exec_of_sequenced (i := .readPayload n) rfl rfl, hsettle, refusedWhenTooLong (.readPayload n) s,
    refusedInOpenFrame (i := .readPayload n) rfl s, refusedUnlessIdle (.readPayload n) s⟩

/-- Settles O32: the frame of the bytes of `D`, on the write path. -/
theorem writePayloadSendsTheBytes : Obligations.WritePayloadSendsTheBytes := fun d s =>
  ⟨exec_of_sequenced (i := .writePayload d) rfl rfl, settlePoints_frameMicros _ d false,
    refusedWhenTooLong (.writePayload d) s, refusedInOpenFrame (i := .writePayload d) rfl s,
    refusedUnlessIdle (.writePayload d) s⟩

end Sys2Proof.Machine
end

section
/-! SUPPORT. The events of a frame, counted, and the first 24 after `CSN↓` (spec 42 R75 to R77). -/

namespace Sys2Proof.Machine

@[simp] theorem byteEvents_length (o i : Byte) : (byteEvents o i).length = 24 := rfl

theorem bytesEvents_length {os is : List Byte} (h : os.length = is.length) :
    (bytesEvents os is).length = 24 * os.length := by
  induction os generalizing is with
  | nil => rfl
  | cons o os ih =>
    cases is with
    | nil => cases h
    | cons i is =>
      rw [bytesEvents_cons, List.length_append, ih (Nat.succ.inj h), byteEvents_length, List.length_cons, Nat.mul_succ,
        Nat.add_comm]

/-- An event that no byte has, a transfer of bytes does not have. -/
theorem count_bytesEvents {e : Event} (h : ∀ o i, (byteEvents o i).count e = 0) (os is : List Byte) :
    (bytesEvents os is).count e = 0 := by
  induction os generalizing is with
  | nil => rfl
  | cons o os ih =>
    cases is with
    | nil => rfl
    | cons i is => rw [bytesEvents_cons, List.count_append, h, ih]

/-- Chip-select does not move during a transfer: the frame has the two edges around it (42 R75). -/
theorem count_csn_frameEvents (os is : List Byte) :
    (frameEvents os is).count .csnDown = 1 ∧ (frameEvents os is).count .csnUp = 1 := by
  have hdown : (bytesEvents os is).count .csnDown = 0 := count_bytesEvents (fun _ _ => rfl) os is
  have hup : (bytesEvents os is).count .csnUp = 0 := count_bytesEvents (fun _ _ => rfl) os is
  simp [frameEvents, hdown, hup]

theorem frameEvents_length {os is : List Byte} (h : os.length = is.length) :
    (frameEvents os is).length = 2 + 24 * os.length := by
  rw [frameEvents, List.length_append, List.length_cons, bytesEvents_length h, List.length_singleton]
  omega

/-- A well-formed sequenced command of a ready block with chip-select released performs one frame: of some command byte and
of its number of data bytes. -/
theorem exec_sequenced_eq_afterFrame {i : Instr} {s : State} (hs : s.ready) (hcsn : s.csn = true)
    (hseq : i.sequenced = true) (hwf : i.wf s.params.maxLen = true) :
    ∃ c d, d.length = i.dataBytes ∧ exec i s = .next (s.afterFrame c d (frameResult s i)) := by
  obtain ⟨c, d, -, -, hsent⟩ := instrMicros_eq_frame_of_sent s hseq
  exact ⟨c, d, dataBytes_of_sent hseq hsent, exec_of_sequenced hseq hsent hs hcsn (of_decide_eq_true hwf)⟩

/-- Settles O35: the events of the frame, whose bytes are the command byte and the data bytes. -/
theorem frameHasTwentySixEventsAndMore : Obligations.FrameHasTwentySixEventsAndMore := by
  intro i s hs hcsn hseq hwf
  obtain ⟨c, d, hdata, hexec⟩ := exec_sequenced_eq_afterFrame hs hcsn hseq hwf
  have hbytes : (c :: d).length = (s.inBytes 0 (d.length + 1)).length := (inBytes_length s 0 _).symm
  refine ⟨_, _, hexec, rfl, ?_, rfl, List.getLast?_concat, count_csn_frameEvents _ _⟩
  rw [frameEvents_length hbytes, List.length_cons, hdata]
  omega

/-- Settles O36: the events after `CSN↓` begin with those of the command byte, whose answer the frame captures. -/
theorem statusIsTheCommandBytesAnswer : Obligations.StatusIsTheCommandBytesAnswer := by
  intro i s hs hcsn hseq hwf
  obtain ⟨c, d, -, hexec⟩ := exec_sequenced_eq_afterFrame hs hcsn hseq hwf
  refine ⟨_, byteEvents c (s.inByte 0), bytesEvents d (s.inBytes 1 d.length) ++ [.csnUp], _, hexec, ?_, rfl, rfl, rfl⟩
  rw [afterFrame_trace, frameEvents, inBytes_succ, bytesEvents_cons]
  simp only [List.cons_append, List.append_assoc]

end Sys2Proof.Machine
end

section
/-! SUPPORT. Requests between which chip-select is released, as a client issues them: each completes, leaves the block ready for
the next, and takes the bytes of its frame from those to arrive (spec 43 R90; 42 R75). -/

namespace Sys2Proof.Machine

/-- A block that a client's request finds and leaves: ready, and no frame open (42 R75). -/
abbrev State.released (s : State) : Prop := s.ready ∧ s.csn = true

/-- `MAXLEN` of a well-formed record is at least 5 (60 R103). -/
theorem State.released.five_le_maxLen {s : State} (hs : s.released) : 5 ≤ s.params.maxLen :=
  of_decide_eq_true (Bool.and_eq_true_iff.mp hs.1.2.1).2

/-- Request `i` completes from `s` in `t` with the result `res`: `t` is released again, and `n` bytes have arrived. -/
structure Completes (i : Instr) (n : Nat) (res : Result) (s t : State) : Prop where
  exec : exec i s = .next t
  result : lastResult t = res
  released : t.released
  params : t.params = s.params
  miso : t.miso = s.miso.drop (8 * n)
  samples : t.samples = s.samples + 8 * n

/-- The bytes still to arrive come after those of the request. -/
theorem Completes.inByte {i : Instr} {n : Nat} {res : Result} {s t : State} (h : Completes i n res s t) (k : Nat) :
    t.inByte k = s.inByte (n + k) :=
  inByte_drop h.miso h.samples k

theorem Completes.inBytes {i : Instr} {n : Nat} {res : Result} {s t : State} (h : Completes i n res s t) (k m : Nat) :
    t.inBytes k m = s.inBytes (n + k) m :=
  inBytes_drop h.miso h.samples k m

/-- The result delivered last is the last result. -/
theorem lastResult_of_results {s : State} {rs : List Result} {res : Result} (h : s.results = rs ++ [res]) :
    lastResult s = res := by
  rw [lastResult, h, List.getLastD_concat]

/-- A sequenced command within `MAXLEN` completes; the command byte and its data bytes have been exchanged (42 R75). -/
theorem completes_of_sequenced {i : Instr} {s : State} (hs : s.released) (hseq : i.sequenced = true)
    (hlen : i.len ≤ s.params.maxLen) : ∃ t, Completes i (i.dataBytes + 1) (frameResult s i) s t := by
  obtain ⟨hready, hcsn⟩ := hs
  obtain ⟨c, d, hdata, hexec⟩ := exec_sequenced_eq_afterFrame hready hcsn hseq (decide_eq_true hlen)
  exact ⟨_, {
    exec := hexec
    result := lastResult_of_results rfl
    released := ⟨hready, hcsn⟩
    params := rfl
    miso := by rw [afterFrame_miso, hdata]
    samples := by rw [afterFrame_samples, hdata] }⟩

/-- A chip-enable request completes and exchanges no byte (41 R70). -/
theorem completes_of_chipEnable {i : Instr} {s : State} (hs : s.released) (hce : i.chipEnable = true) :
    ∃ t, Completes i 0 { status := none, data := none } s t := by
  obtain ⟨⟨hidle, hwf, hsck⟩, hcsn⟩ := hs
  have hexec : ∃ b es, exec i s = .next (s.afterCe b es) := by
    cases i with
    | ceHigh => exact ⟨_, _, exec_ceHigh hidle hwf⟩
    | ceLow => exact ⟨_, _, exec_ceLow hidle hwf⟩
    | cePulse => exact ⟨_, _, exec_cePulse hidle hwf⟩
    | wRreg | wWreg | wRRxPlWid | wRRxPayload | wWTxPayload | wFlushTx | wFlushRx | csnLow | csnHigh | xfer | xferN
    | readReg | writeReg | flushTx | flushRx | readPlWid | readPayload | writePayload => exact Bool.noConfusion hce
  obtain ⟨b, es, hexec⟩ := hexec
  exact ⟨_, {
    exec := hexec
    result := lastResult_of_results rfl
    released := ⟨⟨hidle, hwf, hsck⟩, hcsn⟩
    params := rfl
    miso := rfl
    samples := rfl }⟩

/-- The data byte of `READ_STATUS` is the second byte to arrive, after the status (42 R78). -/
theorem completes_readStatus {s : State} (hs : s.released) (p : Params) :
    ∃ t, Completes (readStatus p) 2 { status := some (s.inByte 0), data := some [s.inByte 1] } s t :=
  completes_of_sequenced hs rfl (Nat.le_trans (by decide : 1 ≤ 5) hs.five_le_maxLen)

theorem completes_clearStatus {s : State} (hs : s.released) (p : Params) (m : Byte) :
    ∃ t, Completes (clearStatus p m) 2 { status := some (s.inByte 0), data := none } s t :=
  completes_of_sequenced hs rfl (Nat.le_trans (by decide : 1 ≤ 5) hs.five_le_maxLen)

end Sys2Proof.Machine
end

section
/-! SUPPORT. Host programs that run to their end (spec 43 R90): what they issue and return, composed from their requests. -/

namespace Sys2Proof.Machine

/-- From `s` the host program issues the requests `l`, runs to its end in `t`, which is released again, and returns `a`. -/
structure HostProg.Performs {α : Type} (prog : HostProg α) (s : State) (l : List Instr) (a : α) (t : State) : Prop where
  requests : prog.requests s = l
  run : prog.run s = .next (a, t)
  released : t.released

theorem HostProg.Performs.done {α : Type} (a : α) {s : State} (hs : s.released) : (HostProg.done a).Performs s [] a s :=
  ⟨rfl, rfl, hs⟩

/-- A program whose first request completes performs it and then what follows from the result. -/
theorem HostProg.Performs.issue {α : Type} {i : Instr} {n : Nat} {res : Result} {s t u : State} {k : Result → HostProg α}
    {l : List Instr} {a : α} (h : Completes i n res s t) (hk : (k res).Performs t l a u) :
    (HostProg.issue i k).Performs s (i :: l) a u where
  requests := by rw [HostProg.requests_issue k h.exec, h.result, hk.requests]
  run := by rw [HostProg.run_issue k h.exec, h.result, hk.run]
  released := hk.released

theorem HostProg.Performs.andThen {α β : Type} {prog : HostProg α} {f : α → HostProg β} {s t u : State}
    {l m : List Instr} {a : α} {b : β} (h : prog.Performs s l a t) (hf : (f a).Performs t m b u) :
    (prog.andThen f).Performs s (l ++ m) b u where
  requests := by rw [HostProg.requests_andThen prog f h.run, h.requests, hf.requests]
  run := by rw [HostProg.run_andThen prog f h.run, hf.run]
  released := hf.released

/-- The requests that complete in every released block: sequenced commands of a length that every `MAXLEN` allows, and the
chip-enable requests. -/
def alwaysCompletes (i : Instr) : Bool := i.chipEnable || i.sequenced && decide (i.len ≤ 5)

theorem completes_of_alwaysCompletes {i : Instr} {s : State} (hs : s.released) (h : alwaysCompletes i = true) :
    ∃ n res t, Completes i n res s t := by
  obtain hce | hframe := Bool.or_eq_true_iff.mp h
  · exact ⟨_, _, completes_of_chipEnable hs hce⟩
  · obtain ⟨hseq, hlen⟩ := Bool.and_eq_true_iff.mp hframe
    exact ⟨_, _, completes_of_sequenced hs hseq (Nat.le_trans (of_decide_eq_true hlen) hs.five_le_maxLen)⟩

/-- A fixed list of such requests is performed to its end. -/
theorem issueAll_performs {α : Type} {l : List Instr} (hl : l.all alwaysCompletes = true) (a : α) {s : State}
    (hs : s.released) : ∃ t, (issueAll l a).Performs s l a t := by
  induction l generalizing s with
  | nil => exact ⟨s, .done a hs⟩
  | cons i l ih =>
    obtain ⟨hi, hl⟩ := Bool.and_eq_true_iff.mp hl
    obtain ⟨n, res, t, h⟩ := completes_of_alwaysCompletes hs hi
    obtain ⟨u, hu⟩ := ih hl h.released
    exact ⟨u, .issue h hu⟩

end Sys2Proof.Machine
end

section
/-! SUPPORT. The client's acknowledgement and payload sequences (spec 43 R92 to R97). -/

namespace Sys2Proof.Machine

/-- A status byte has a bit of the mask of bit `k` set exactly when its bit `k` is set. -/
theorem statusHas_twoPow (s : Byte) {k : Nat} (hk : k < 8) : statusHas (BitVec.twoPow 8 k) s = s.getLsbD k := by
  have hmask : BitVec.twoPow 8 k ≠ 0 := fun h => by simpa [hk] using congrArg (·.getLsbD k) h
  rw [statusHas, BitVec.and_twoPow]
  cases s.getLsbD k with
  | false => rfl
  | true => exact decide_eq_true hmask

/-- Settles O51: the masks 0x20 and 0x10 are those of bits 5 and 4. -/
theorem classifyReadsTwoStatusBits : Obligations.ClassifyReadsTwoStatusBits := by
  intro p s
  constructor
  · simp only [classify, statusHas, decide_eq_true_eq]
  · intro htx hmax
    have hbit5 : statusHas 0x20 s = s.getLsbD 5 := statusHas_twoPow s (k := 5) (by decide)
    have hbit4 : statusHas 0x10 s = s.getLsbD 4 := statusHas_twoPow s (k := 4) (by decide)
    rw [classify, htx, hmax, hbit5, hbit4]

/-- What `TRANSMIT` and `RETRANSMIT` share: the byte classified is the second to arrive, the data byte of `READ_STATUS`. -/
theorem pulseAndClassify_performs (p : Params) {s : State} (hs : s.released) :
    ∃ t, (pulseAndClassify p).Performs s [.cePulse, readStatus p, clearStatus p (p.txDs ||| p.maxRt)]
      (classify p (s.inByte 1)) t := by
  obtain ⟨t₁, hpulse⟩ := completes_of_chipEnable (i := .cePulse) hs rfl
  obtain ⟨t₂, hread⟩ := completes_readStatus hpulse.released p
  obtain ⟨t₃, hclear⟩ := completes_clearStatus hread.released p (p.txDs ||| p.maxRt)
  have hbyte : t₁.inByte 1 = s.inByte 1 := hpulse.inByte 1
  exact ⟨t₃, hbyte ▸ .issue hpulse (.issue hread (.issue hclear (.done _ hclear.released)))⟩

/-- Settles O52: the payload's frame moves `len(D) + 1` bytes, then the shared sequence follows. -/
theorem transmitWritesPulsesReadsAndClears : Obligations.TransmitWritesPulsesReadsAndClears := by
  intro d s hready hcsn hlen
  obtain ⟨t, hwrite⟩ := completes_of_sequenced (i := .writePayload d) ⟨hready, hcsn⟩ rfl hlen
  obtain ⟨u, hu⟩ := pulseAndClassify_performs s.params hwrite.released
  have hbyte : t.inByte 1 = s.inByte (d.length + 2) := hwrite.inByte 1
  have hall : (transmit s.params d).Performs s _ _ u := .issue hwrite hu
  exact ⟨hall.requests, fun htx hmax => by rw [htx, hmax]; rfl, u, hbyte ▸ hall.run, hall.released⟩

/-- Settles O53: `RETRANSMIT` is the shared sequence alone. -/
theorem retransmitPulsesReadsAndClears : Obligations.RetransmitPulsesReadsAndClears := by
  intro s hready hcsn
  obtain ⟨t, ht⟩ := pulseAndClassify_performs s.params ⟨hready, hcsn⟩
  exact ⟨ht.requests, t, ht.run, ht.released⟩

/-- Settles O54: both sequences are the one request, and differ in what they make of its data byte. -/
theorem checkAckAndDataReadyOnlyRead : Obligations.CheckAckAndDataReadyOnlyRead := by
  intro s hready hcsn
  obtain ⟨t, hread⟩ := completes_readStatus ⟨hready, hcsn⟩ s.params
  have hcheck : (checkAck s.params).Performs s _ _ t := .issue hread (.done _ hread.released)
  have hdata : (dataReady s.params).Performs s _ _ t := .issue hread (.done _ hread.released)
  exact ⟨hcheck.requests, hdata.requests, t, hcheck.run, hdata.run, hread.released⟩

/-- The last request of `GET_PAYLOAD`: `RX_DR` is cleared exactly when the status byte `st` has it set (43 R96). -/
theorem clearWhenSet_performs {α : Type} (p : Params) (st : Byte) (a : α) {s : State} (hs : s.released) :
    ∃ t, HostProg.Performs
      (if statusHas p.rxDr st then .issue (clearStatus p p.rxDr) fun _ => .done a else .done a) s
      (if st &&& p.rxDr ≠ 0 then [clearStatus p p.rxDr] else []) a t := by
  by_cases hset : st &&& p.rxDr ≠ 0
  · obtain ⟨t, hclear⟩ := completes_clearStatus hs p p.rxDr
    have hhas : statusHas p.rxDr st = true := decide_eq_true hset
    rw [if_pos hset, if_pos hhas]
    exact ⟨t, .issue hclear (.done a hclear.released)⟩
  · have hhas : ¬ statusHas p.rxDr st = true := fun h => hset (of_decide_eq_true h)
    rw [if_neg hset, if_neg hhas]
    exact ⟨s, .done a hs⟩

/-- Settles O55: the width is the second byte to arrive, the payload the `m` bytes from the fourth on, and the status register
follows it after one more status byte. -/
theorem getPayloadReadsAtMostMaxSize : Obligations.GetPayloadReadsAtMostMaxSize := by
  intro maxSize buffer s hready hcsn hmax _ m st
  obtain ⟨t₁, hwidth⟩ := completes_of_sequenced (i := .readPlWid) ⟨hready, hcsn⟩ rfl (Nat.zero_le _)
  have hm : m ≤ t₁.params.maxLen := hwidth.params ▸ Nat.le_trans (Nat.min_le_right _ _) hmax
  obtain ⟨t₂, hpayload⟩ := completes_of_sequenced (i := .readPayload m) hwidth.released rfl hm
  obtain ⟨t₃, hread⟩ := completes_readStatus hpayload.released s.params
  have hbytes : t₁.inBytes 1 m = s.inBytes 3 m := hwidth.inBytes 1 m
  have hst : t₂.inByte 1 = st := by
    rw [hpayload.inByte, hwidth.inByte]
    exact congrArg s.inByte (by simp only [Instr.dataBytes]; omega)
  have hcopy : copyInto buffer (t₁.inBytes 1 m) = s.inBytes 3 m ++ buffer.drop m := by
    rw [copyInto, hbytes, inBytes_length]
  obtain ⟨u, hu⟩ := clearWhenSet_performs s.params (t₂.inByte 1) (t₂.inByte 1, copyInto buffer (t₁.inBytes 1 m))
    hread.released
  have hall : (getPayload s.params maxSize buffer).Performs s _ _ u := .issue hwidth (.issue hpayload (.issue hread hu))
  rw [hcopy, hst] at hall
  exact ⟨hall.requests, u, hall.run, hall.released⟩

end Sys2Proof.Machine
end

section
/-! SUPPORT. The client's power transitions and start sequences (spec 43 R98 to R101). -/

namespace Sys2Proof.Machine

/-- A term of `cfg`: one bit, set on a condition. -/
theorem getLsbD_ite_twoPow (c : Prop) [Decidable c] {j : Nat} (hj : j < 8) (k : Nat) :
    (if c then BitVec.twoPow 8 j else 0).getLsbD k = (k == j && decide c) := by
  by_cases hc : c
  · simp [hc, hj, BitVec.getLsbD_twoPow, eq_comm, Bool.beq_eq_decide_eq]
  · simp [hc]

/-- `cfg` as the four single bits it is made of (43 R98). -/
theorem cfg_eq_bits (c : Client) (p : Power) :
    cfg c p = (if c.crc ≠ .off then BitVec.twoPow 8 3 else 0) ||| (if c.crc = .twoBytes then BitVec.twoPow 8 2 else 0) |||
      (if p = .on then BitVec.twoPow 8 1 else 0) ||| (if c.mode = .rx then BitVec.twoPow 8 0 else 0) := by
  rw [ite_not]
  rfl

/-- Settles O56: each of the four terms of the byte is one bit. -/
theorem configByteHoldsCrcPowerAndMode : Obligations.ConfigByteHoldsCrcPowerAndMode := by
  intro c p k
  simp (disch := decide) only [cfg_eq_bits, BitVec.getLsbD_or, getLsbD_ite_twoPow]

theorem powerUpRequests_alwaysComplete (p : Params) (c : Client) :
    (powerUpRequests p c).all alwaysCompletes = true := by
  unfold powerUpRequests
  split
  · rfl
  · split <;> rfl

theorem powerDownRequests_alwaysComplete (p : Params) (c : Client) :
    (powerDownRequests p c).all alwaysCompletes = true := by
  unfold powerDownRequests
  split
  · rfl
  · split <;> rfl

theorem powerUp_performs (p : Params) (c : Client) {s : State} (hs : s.released) :
    ∃ t, (powerUp p c).Performs s (powerUpRequests p c) { c with power := .on } t :=
  issueAll_performs (powerUpRequests_alwaysComplete p c) _ hs

theorem powerDown_performs (p : Params) (c : Client) {s : State} (hs : s.released) :
    ∃ t, (powerDown p c).Performs s (powerDownRequests p c) { c with power := .off } t :=
  issueAll_performs (powerDownRequests_alwaysComplete p c) _ hs

/-- In the target state the list of requests is empty, and the power written is the power held. -/
theorem powerUp_of_on (p : Params) {c : Client} (h : c.power = .on) : powerUp p c = .done c := by
  rw [powerUp, powerUpRequests, if_pos h, ← h]
  rfl

theorem powerDown_of_off (p : Params) {c : Client} (h : c.power = .off) : powerDown p c = .done c := by
  rw [powerDown, powerDownRequests, if_pos h, ← h]
  rfl

/-- Settles O57: the lists of requests are empty in the target state and performed to their end otherwise. -/
theorem powerTransitionsAreNoOpsInTheTargetState : Obligations.PowerTransitionsAreNoOpsInTheTargetState := by
  intro c s
  refine ⟨fun hon => ?_, fun hoff => ?_, fun hready hcsn hoff => ?_, fun hready hcsn hon => ?_⟩
  · rw [powerUp_of_on s.params hon]
    exact ⟨rfl, rfl⟩
  · rw [powerDown_of_off s.params hoff]
    exact ⟨rfl, rfl⟩
  · obtain ⟨t, ht⟩ := powerUp_performs s.params c ⟨hready, hcsn⟩
    have hrequests := ht.requests
    rw [powerUpRequests, hoff, if_neg (by decide)] at hrequests
    exact ⟨hrequests, t, ht.run⟩
  · obtain ⟨t, ht⟩ := powerDown_performs s.params c ⟨hready, hcsn⟩
    have hrequests := ht.requests
    rw [powerDownRequests, hon, if_neg (by decide)] at hrequests
    exact ⟨hrequests, t, ht.run⟩

/-- The twenty frames of a start sequence carry one byte, five bytes or none. -/
theorem startRequests_alwaysComplete (p : Params) (c : Client) :
    (startRequests p c).all alwaysCompletes = true := by
  simp [startRequests, writeReg1, clearStatus, alwaysCompletes, Instr.sequenced, Instr.len]

theorem startAs_performs (p : Params) (m : Mode) (c : Client) {s : State} (hs : s.released) :
    ∃ t, (startAs p m c).Performs s
      (startRequests p (startContext m c) ++ powerUpRequests p (startContext m c))
      { startContext m c with power := .on } t := by
  obtain ⟨t, hframes⟩ := issueAll_performs (startRequests_alwaysComplete p (startContext m c)) (startContext m c) hs
  obtain ⟨u, hpower⟩ := powerUp_performs p (startContext m c) hframes.released
  exact ⟨u, hframes.andThen hpower⟩

/-- Settles O58: the frames of `startRequests`, then `POWER_UP`, in the context of `startContext`. -/
theorem startPushesEveryRegister : Obligations.StartPushesEveryRegister := by
  intro m c s hready hcsn p p1
  obtain ⟨t, ht⟩ := startAs_performs p m c ⟨hready, hcsn⟩
  exact ⟨ht.requests, t, ht.run, ht.released⟩

end Sys2Proof.Machine
end

section
/-! SUPPORT. When an instruction completes, and why it is refused (spec 60 R102 to R106). -/

namespace Sys2Proof.Machine

theorem instr_wf_eq_true {maxLen : Nat} {i : Instr} : i.wf maxLen = true ↔ i.len ≤ maxLen := decide_eq_true_iff

theorem instr_wf_eq_false {maxLen : Nat} {i : Instr} : i.wf maxLen = false ↔ maxLen < i.len :=
  decide_eq_false_iff_not.trans Nat.not_le

/-- The refusal check is all that keeps an instruction from completing (60 R102, R103). -/
theorem exec_completes_iff {i : Instr} {s : State} :
    (∃ t, exec i s = .next t) ↔ refusalOf i.sequenced i.len s = none :=
  ⟨fun ⟨_, hnext⟩ => (exec_next hnext).1, fun haccepted => ⟨_, exec_of_accepted haccepted⟩⟩

/-- Settles O14: the conditions are those under which the refusal check passes. -/
theorem completesExactlyWhenAccepted : Obligations.CompletesExactlyWhenAccepted := by
  intro i s
  rw [exec_completes_iff, refusalOf_eq_none, instr_wf_eq_true]

/-- Settles O15: one refusal for each reason, in the order of the check. -/
theorem refusalReasonsInOrder : Obligations.RefusalReasonsInOrder := by
  intro i s hidle
  refine ⟨fun hbad => ?badConfig, fun hwf htooLong => ?tooLong, fun hwf hlen hseq hopen => ?openFrame⟩
  case badConfig => exact exec_of_badConfig hidle hbad i
  case tooLong => exact refusedWhenTooLong i s hidle hwf (instr_wf_eq_false.mp htooLong)
  case openFrame => exact refusedInOpenFrame hseq s hidle hwf (instr_wf_eq_true.mp hlen) hopen

/-- Settles O16: the phase is the first thing the refusal check looks at. -/
theorem nothingIsPerformedOutsideIdle : Obligations.NothingIsPerformedOutsideIdle := refusedUnlessIdle

end Sys2Proof.Machine
end

section
/-! SUPPORT. Reset and runs (spec 70 R115, R118, R129): the block waits with no request, accepts every instruction after
reset, and keeps its invariant along every run. -/

namespace Sys2Proof.Machine

theorem step_of_port_nil {s : State} (hport : s.port = []) : step s = .next s := by
  rw [step, hport]

/-- Settles O9: the port of the reset state is empty, so reset is one case of the rule. -/
theorem stepWithNoRequestWaits : Obligations.StepWithNoRequestWaits :=
  ⟨fun _ hport => step_of_port_nil hport, step_of_port_nil rfl⟩

/-- Settles O13: reset leaves the block `IDLE` with chip-select released, and the record and the length are given, so every
condition of acceptance holds. -/
theorem everyRequestIsAcceptedAfterReset : Obligations.EveryRequestIsAcceptedAfterReset := by
  intro p i hwf hlen
  have hidle : (State.resetWith p).phase = .idle := rfl
  have hcsn : (State.resetWith p).csn = true := rfl
  exact (completesExactlyWhenAccepted i (State.resetWith p)).mpr ⟨hidle, hwf, hlen, fun _ => hcsn⟩

/-- What holds at every start of a run and is kept by every step holds of every reachable state. -/
theorem Reachable.of_start_of_step {P : State → Prop}
    (hstart : ∀ (p : Params) (prog : List Item) (levels : List Level),
      P { State.resetWith p with port := prog, miso := levels })
    (hstep : ∀ s t : State, P s → Machine.step s = .next t → P t) {s : State} (hs : Reachable s) : P s := by
  induction hs with
  | start p prog levels => exact hstart p prog levels
  | step _ hnext ih => exact hstep _ _ ih hnext

/-- Settles O50: reset meets the invariant and every step keeps it. -/
theorem everyRunKeepsALegalBusTrace : Obligations.EveryRunKeepsALegalBusTrace := by
  intro s hs
  obtain ⟨-, hstart⟩ := resetMeetsTheInvariant
  exact hs.of_start_of_step hstart stepKeepsTheInvariant

end Sys2Proof.Machine
end
